-- ==== Sys2Proof/Word.lean ====
section
/-! DEFINITION. The word and byte types of BIP39C (10_state.md R13, 00_scope.md R10): every register and the bus data
are 32 bits wide, and the entropy is a sequence of bytes. -/

namespace Sys2Proof

/-- A register value or a bus data value: `XLEN = 32` bits (R7, R10). -/
abbrev Word := BitVec 32

/-- One byte of the entropy (R24) or of the hash message (R70). -/
abbrev Byte := BitVec 8

end Sys2Proof
end

