-- ==== Sys2Proof/Syntax.lean ====
section
/-! DEFINITION. The seven commands of 30_encoding.md R58, one constructor per row of spec/opcode_table.json. -/

namespace Sys2Proof

/-- A command. `CKSUM` and `UNPACK` carry the immediate of the command word, read as an unsigned number (R57). -/
inductive Instr where
  /-- `NOP` (R87). -/
  | nop
  /-- `CKSUM n` (R68): `n` is the number of checksum bits asked for. -/
  | cksum (n : Nat)
  /-- `PACK` (R75). -/
  | pack
  /-- `UNPACK ebits` (R77): `ebits` is the number of leading stream bits that are entropy. -/
  | unpack (ebits : Nat)
  /-- `ENCODE` (R82). -/
  | encode
  /-- `DECODE` (R83). -/
  | decode
  /-- `CLEAR` (R88). -/
  | clear
  deriving DecidableEq, Repr

end Sys2Proof
end

