-- ==== Sys2Proof/WellFormed.lean ====
section
/-! DEFINITION. Which commands have a command word: the immediate is 9 bits wide (30_encoding.md R56, R57). -/

namespace Sys2Proof

/-- An immediate that fits its field, 0 to 511 (R57). -/
def immFits (n : Nat) : Bool := n < 512

/-- A command that can be written as a command word. Only `CKSUM` and `UNPACK` have anything to check (R57, R63). -/
def Instr.wellFormed : Instr → Bool
  | .nop => true
  | .cksum n => immFits n
  | .pack => true
  | .unpack ebits => immFits ebits
  | .encode => true
  | .decode => true
  | .clear => true

/-- The check as a proposition. -/
abbrev Instr.WellFormed (i : Instr) : Prop := i.wellFormed = true

end Sys2Proof
end

