-- ==== Sys2Proof/Decode.lean ====
section
/-! DEFINITION. The command word: its fields (30_encoding.md R56), the total decoder of R65, which rejects every illegal
word by name (R59, R60), and the encoder written from the table of R58. -/

namespace Sys2Proof

/-- Field `op`, bits 3:0 (R56). -/
def fieldOp (w : Word) : BitVec 4 := w.extractLsb' 0 4

/-- Field `imm`, bits 12:4 (R56). -/
def fieldImm (w : Word) : BitVec 9 := w.extractLsb' 4 9

/-- Field `zero`, bits 31:13 (R56). -/
def fieldZero (w : Word) : BitVec 19 := w.extractLsb' 13 19

/-- Why a word is no command (R59, R103). -/
inductive Illegal where
  /-- A 1 in bits 31:13. -/
  | zeroField
  /-- An opcode 7 to 15 (R60). -/
  | reservedOpcode
  /-- A non-zero `imm` with an opcode that takes none. -/
  | immediate
  deriving DecidableEq, Repr

/-- A command without an immediate: its `imm` must be 0 (R56, R65). -/
def decodePlain (w : Word) (i : Instr) : Except Illegal Instr :=
  if fieldImm w = 0 then .ok i else .error .immediate

/-- The decoder of R65, total on the `2^32` words. -/
def decode (w : Word) : Except Illegal Instr :=
  if fieldZero w ≠ 0 then .error .zeroField
  else if fieldOp w = 0 then decodePlain w .nop
  else if fieldOp w = 1 then .ok (.cksum (fieldImm w).toNat)
  else if fieldOp w = 2 then decodePlain w .pack
  else if fieldOp w = 3 then .ok (.unpack (fieldImm w).toNat)
  else if fieldOp w = 4 then decodePlain w .encode
  else if fieldOp w = 5 then decodePlain w .decode
  else if fieldOp w = 6 then decodePlain w .clear
  else .error .reservedOpcode

/-- The opcode of a command (R58). -/
def Instr.op : Instr → BitVec 4
  | .nop => 0
  | .cksum _ => 1
  | .pack => 2
  | .unpack _ => 3
  | .encode => 4
  | .decode => 5
  | .clear => 6

/-- The immediate of a command, 0 where it takes none (R57, R58). -/
def Instr.imm : Instr → Nat
  | .nop => 0
  | .cksum n => n
  | .pack => 0
  | .unpack ebits => ebits
  | .encode => 0
  | .decode => 0
  | .clear => 0

/-- The command word of a well-formed command: `op + 16 * imm` (R58). -/
def encode (i : Instr) : Word := BitVec.ofNat 32 (i.op.toNat + 16 * i.imm)

/-- What the decoder reads from the word whose bits are those of `w` below `nbits`, numbered as spec/opcode_table.json
numbers them. A command is one 32-bit word (R55), so a number of more bits is no command. -/
def decodeTableWord (nbits w : Nat) : Option Instr :=
  if w % 2 ^ nbits < 2 ^ 32 then (decode (BitVec.ofNat 32 (w % 2 ^ nbits))).toOption else none

end Sys2Proof
end

