-- ==== Sys2Proof/Machine/Flags.lean ====
section
/-! DEFINITION. The `STATUS` register: its fields (10_state.md R22) and the result codes (60_exceptions.md R99). The block
has no other status and no flag a command reads (R17). -/

namespace Sys2Proof.Machine

/-- The result of a command (R99). -/
inductive ResultCode where
  /-- The command ended without an error. -/
  | ok
  /-- `ENCODE` with `ELEN` outside the five lengths (R100). -/
  | invalidEntropyLength
  /-- `DECODE` with `WCNT` outside the five counts (R101). -/
  | invalidWordCount
  /-- `DECODE` with a checksum that differs (R101). -/
  | invalidChecksum
  /-- `UNPACK` or `DECODE` with an index above 2047, or `UNPACK` with `ebits` not a multiple of 8 (R102). -/
  | malformedIndex
  /-- `CKSUM`, `PACK` or `UNPACK` with a request the functions are not defined for (R102). -/
  | badParameter
  /-- A word that is no command (R103). -/
  | illegalCommand
  deriving DecidableEq, Repr

/-- The code in `STATUS.RESULT` (R99). -/
def ResultCode.code : ResultCode → BitVec 4
  | .ok => 0
  | .invalidEntropyLength => 1
  | .invalidWordCount => 2
  | .invalidChecksum => 3
  | .malformedIndex => 4
  | .badParameter => 5
  | .illegalCommand => 6

/-- A value of `STATUS`: `EIDX` in bits 12:8, `LASTOP` in bits 7:4, `RESULT` in bits 3:0, zeros above (R22). -/
def mkStatus (r : ResultCode) (lastop : BitVec 4) (eidx : BitVec 5) : Word := 0#19 ++ eidx ++ lastop ++ r.code

/-- `STATUS.RESULT`, bits 3:0 (R22). -/
def statusResult (w : Word) : BitVec 4 := w.extractLsb' 0 4

/-- `STATUS.LASTOP`, bits 7:4 (R22). -/
def statusLastop (w : Word) : BitVec 4 := w.extractLsb' 4 4

/-- `STATUS.EIDX`, bits 12:8 (R22). -/
def statusEidx (w : Word) : BitVec 5 := w.extractLsb' 8 5

/-- The bits of `STATUS` above the implemented ones, bits 31:13 (R19, R22). -/
def statusReserved (w : Word) : BitVec 19 := w.extractLsb' 13 19

end Sys2Proof.Machine
end

