-- ==== Sys2Proof/Machine/Bits.lean ====
section
/-! DEFINITION. Bit sequences and byte sequences (00_scope.md R11, 41_bitpack.md R72). Position 0 of a list is the first
element, and a bit sequence is read most significant bit first throughout. -/

namespace Sys2Proof.Machine

/-- `val(s)`: the unsigned number a bit sequence spells, `s[0]` the most significant bit (R11). -/
def val (s : List Bool) : Nat := s.foldl (fun acc b => 2 * acc + b.toNat) 0

/-- `bitsN(v)`: the `n`-bit sequence that spells `v` (R11). Of a larger `v` it spells the low `n` bits. -/
def bitsOf (n v : Nat) : List Bool := (List.range n).map fun t => v.testBit (n - 1 - t)

/-- `bits(e)`: the bit stream of a byte sequence (R72). -/
def bits (e : List Byte) : List Bool := e.flatMap fun b => bitsOf 8 b.toNat

/-- The first `m` consecutive groups of `k` elements of a sequence. -/
def groups {α : Type} (k : Nat) : Nat → List α → List (List α)
  | 0, _ => []
  | m + 1, s => s.take k :: groups k m (s.drop k)

/-- `bytes(s)`: the byte sequence whose bit stream is `s`, for a length that is a multiple of 8 (R72). -/
def bytes (s : List Bool) : List Byte := (groups 8 (s.length / 8) s).map fun g => BitVec.ofNat 8 (val g)

/-- The word of four bytes, the first in bits 31:24 (R24, and the assembly of words in 44_hash_primitive.md). -/
def wordOfBytes (a b c d : Byte) : Word :=
  BitVec.ofNat 32 (2 ^ 24 * a.toNat + 2 ^ 16 * b.toNat + 2 ^ 8 * c.toNat + d.toNat)

end Sys2Proof.Machine
end

