-- ==== Sys2Proof/Machine/Sha256.lean ====
section
/-! DEFINITION. SHA-256 as 44_hash_primitive.md R92 to R96 define it, for messages of any length. -/

namespace Sys2Proof.Machine

/-- `Ch` (R94). -/
def shaCh (x y z : Word) : Word := (x &&& y) ^^^ (~~~x &&& z)

/-- `Maj` (R94). -/
def shaMaj (x y z : Word) : Word := (x &&& y) ^^^ (x &&& z) ^^^ (y &&& z)

/-- `S0` (R94). -/
def shaBigS0 (x : Word) : Word := x.rotateRight 2 ^^^ x.rotateRight 13 ^^^ x.rotateRight 22

/-- `S1` (R94). -/
def shaBigS1 (x : Word) : Word := x.rotateRight 6 ^^^ x.rotateRight 11 ^^^ x.rotateRight 25

/-- `s0` (R94). -/
def shaSmallS0 (x : Word) : Word := x.rotateRight 7 ^^^ x.rotateRight 18 ^^^ (x >>> 3)

/-- `s1` (R94). -/
def shaSmallS1 (x : Word) : Word := x.rotateRight 17 ^^^ x.rotateRight 19 ^^^ (x >>> 10)

/-- The hash value `h[0..7]`, and equally the working variables `a` to `hh` of R95. -/
structure HashValue where
  a : Word
  b : Word
  c : Word
  d : Word
  e : Word
  f : Word
  g : Word
  h : Word
  deriving DecidableEq, Repr

/-- The initial hash value `H0..H7` (R93). -/
def shaInit : HashValue where
  a := 0x6a09e667
  b := 0xbb67ae85
  c := 0x3c6ef372
  d := 0xa54ff53a
  e := 0x510e527f
  f := 0x9b05688c
  g := 0x1f83d9ab
  h := 0x5be0cd19

/-- The eight words that one line of the table of R93 spells, the leftmost in bits 255:224. -/
def shaLine (line : BitVec 256) : List Word := (List.range 8).map fun i => line.extractLsb' (224 - 32 * i) 32

/-- The round constants `K[0..63]`, eight to a line as R93 prints them. -/
def shaK : List Word :=
  shaLine 0x428a2f98_71374491_b5c0fbcf_e9b5dba5_3956c25b_59f111f1_923f82a4_ab1c5ed5 ++
  shaLine 0xd807aa98_12835b01_243185be_550c7dc3_72be5d74_80deb1fe_9bdc06a7_c19bf174 ++
  shaLine 0xe49b69c1_efbe4786_0fc19dc6_240ca1cc_2de92c6f_4a7484aa_5cb0a9dc_76f988da ++
  shaLine 0x983e5152_a831c66d_b00327c8_bf597fc7_c6e00bf3_d5a79147_06ca6351_14292967 ++
  shaLine 0x27b70a85_2e1b2138_4d2c6dfc_53380d13_650a7354_766a0abb_81c2c92e_92722c85 ++
  shaLine 0xa2bfe8a1_a81a664b_c24b8b70_c76c51a3_d192e819_d6990624_f40e3585_106aa070 ++
  shaLine 0x19a4c116_1e376c08_2748774c_34b0bcb5_391c0cb3_4ed8aa4a_5b9cca4f_682e6ff3 ++
  shaLine 0x748f82ee_78a5636f_84c87814_8cc70208_90befffa_a4506ceb_bef9a3f7_c67178f2

/-- How many `0x00` bytes padding appends to a message of `len` bytes and its `0x80`: the fewest that make the length
congruent to 56 modulo 64 (R92). -/
def shaZeros (len : Nat) : Nat := (119 - len % 64) % 64

/-- Padding (R92): the message, `0x80`, zeros, and the bit length as 8 bytes, most significant byte first. -/
def shaPad (m : List Byte) : List Byte :=
  m ++ (0x80#8 :: List.replicate (shaZeros m.length) 0#8) ++ bytes (bitsOf 64 (8 * m.length))

/-- A big-endian word of four bytes, the first in bits 31:24. -/
def beWord (b : List Byte) : Word := wordOfBytes (b.getD 0 0) (b.getD 1 0) (b.getD 2 0) (b.getD 3 0)

/-- The words `W[0..15]` of a 64-byte block (R95). -/
def shaBlockWords (block : List Byte) : List Word := (groups 4 16 block).map beWord

/-- `W[0..16+n-1]`, the latest word first, from the first 16 in that order (R95): each new word is
`s1(W[t-2]) + W[t-7] + s0(W[t-15]) + W[t-16]`. -/
def shaExtend : Nat → List Word → List Word
  | 0, ws => ws
  | n + 1, ws =>
    shaExtend n ((shaSmallS1 (ws.getD 1 0) + ws.getD 6 0 + shaSmallS0 (ws.getD 14 0) + ws.getD 15 0) :: ws)

/-- The message schedule `W[0..63]` of a block (R95). -/
def shaSchedule (block : List Byte) : List Word := (shaExtend 48 (shaBlockWords block).reverse).reverse

/-- `T1` of R95, from the working variables, `K[t]` and `W[t]`. -/
def shaT1 (v : HashValue) (k w : Word) : Word := v.h + shaBigS1 v.e + shaCh v.e v.f v.g + k + w

/-- `T2` of R95. -/
def shaT2 (v : HashValue) : Word := shaBigS0 v.a + shaMaj v.a v.b v.c

/-- One of the 64 rounds of R95; the pair is `(K[t], W[t])`. -/
def shaRound (v : HashValue) (kw : Word × Word) : HashValue where
  a := shaT1 v kw.1 kw.2 + shaT2 v
  b := v.a
  c := v.b
  d := v.c
  e := v.d + shaT1 v kw.1 kw.2
  f := v.e
  g := v.f
  h := v.g

/-- The sum of two hash values, word by word modulo `2^32` (the last lines of R95). -/
def HashValue.add (u v : HashValue) : HashValue where
  a := u.a + v.a
  b := u.b + v.b
  c := u.c + v.c
  d := u.d + v.d
  e := u.e + v.e
  f := u.f + v.f
  g := u.g + v.g
  h := u.h + v.h

/-- Processing one 64-byte block (R95). -/
def shaBlock (v : HashValue) (block : List Byte) : HashValue :=
  v.add ((shaK.zip (shaSchedule block)).foldl shaRound v)

/-- The eight words of a hash value, `h[0]` first. -/
def HashValue.words (v : HashValue) : List Word := [v.a, v.b, v.c, v.d, v.e, v.f, v.g, v.h]

/-- The hash value after the last block of a message, the blocks processed in order (R92, R95). -/
def shaValue (m : List Byte) : HashValue :=
  (groups 64 ((shaPad m).length / 64) (shaPad m)).foldl shaBlock shaInit

/-- The SHA-256 digest (R96): `h[0]` to `h[7]`, each most significant byte first, as one 256-bit value whose most
significant bit is digest bit 0. -/
def sha256 (m : List Byte) : BitVec 256 :=
  (shaValue m).a ++ (shaValue m).b ++ (shaValue m).c ++ (shaValue m).d ++
    (shaValue m).e ++ (shaValue m).f ++ (shaValue m).g ++ (shaValue m).h

end Sys2Proof.Machine
end

