-- ==== Sys2Proof/Machine/HashPort.lean ====
section
/-! DEFINITION. The hash port (44_hash_primitive.md R90): the parameter `HASH` of 00_scope.md R8 and its instance. -/

namespace Sys2Proof.Machine

/-- A hash function the port may carry: total, on every byte sequence, with a 256-bit digest whose most significant bit
is digest bit 0 (R8, R90). -/
abbrev HashFn := List Byte → BitVec 256

/-- `HASH`: the primitive behind the port is SHA-256 (R91). It is a total function, so a hash core that never answers
has no place in the model (R123, log entry 5). -/
def hashPort : HashFn := sha256

end Sys2Proof.Machine
end

