-- ==== Sys2Proof/Machine/Codec.lean ====
section
/-! DEFINITION. The three functions of the source: `checksum_bits` (40_checksum.md R67), `pack` and `unpack`
(41_bitpack.md R73, R74), for every hash function. Each is a total Lean function; the spec leaves `checksum_bits`
undefined above 256 bits and the other two outside their domains, and no command uses a value from there
(log entry 7). -/

namespace Sys2Proof.Machine

/-- `checksum_bits(e, n)`: the first `n` bits of the digest of `e`, for `n <= 256` (R67). -/
def checksumBits (H : HashFn) (e : List Byte) (n : Nat) : List Bool := (bitsOf 256 (H e).toNat).take n

/-- The combined stream of `pack`: the entropy bits, then the checksum bits (R73). -/
def combined (e : List Byte) (c : List Bool) : List Bool := bits e ++ c

/-- `pack(e, c)`: the 11-bit groups of the combined stream as numbers, for a total length that is a multiple of 11
(R73). -/
def pack (e : List Byte) (c : List Bool) : List Nat :=
  (groups 11 ((combined e c).length / 11) (combined e c)).map val

/-- The combined stream of `unpack`: each index as 11 bits (R74). -/
def indexStream (w : List Nat) : List Bool := w.flatMap (bitsOf 11)

/-- `unpack(w, ebits)`: the stream split at `ebits` into bytes and the remaining bits, for indices up to 2047 and an
`ebits` that is a multiple of 8 and not beyond the stream (R74). -/
def unpack (w : List Nat) (ebits : Nat) : List Byte × List Bool :=
  (bytes ((indexStream w).take ebits), (indexStream w).drop ebits)

end Sys2Proof.Machine
end

