-- ==== Sys2Proof/Config.lean ====
section
/-! DEFINITION. What is fixed for the block and is not state: the constants of 00_scope.md R5 and R7, and the parameter
`BASE` of R8. The other parameter of R8, `HASH`, is in Sys2Proof/Machine/HashPort.lean. -/

namespace Sys2Proof.Config

/-- The value of the `ID` register, the four ASCII codes of "BP39" (R2, R20). -/
def idValue : Word := 0x42503339

/-- `ENT_CAP`: bytes in the entropy buffer, the largest value of `ELEN` (R7, R19). -/
abbrev entCap : Nat := 32

/-- `CSB_CAP`: bits in the checksum-bit buffer, the largest value of `CSLEN` (R7, R19). -/
abbrev csbCap : Nat := 256

/-- `IDX_CAP`: slots in the index buffer, the largest value of `WCNT` (R7, R19). -/
abbrev idxCap : Nat := 24

/-- `WINDOW`: the size in bytes of the register window (R7). -/
abbrev window : Nat := 256

/-- `ENT_LENGTHS`: the lengths in bytes of a valid entropy (R5). -/
def entLengths : List Nat := [16, 20, 24, 28, 32]

/-- `WORD_COUNTS`: the lengths of a valid index sequence (R5). -/
def wordCounts : List Nat := [12, 15, 18, 21, 24]

/-- The platform's choice of window (R8, R44): which 256-byte page of the bus address space the block sits in.
A free value: the spec leaves `BASE` open, and nothing can be proved of it (log entry 6). -/
opaque basePage : Nat

/-- `BASE`: the bus address of the register window, a multiple of 256 (R8). -/
def base : Nat := 256 * basePage

end Sys2Proof.Config
end

