-- ==== Sys2Proof/Machine/State.lean ====
section
/-! DEFINITION. The state of the block (10_state.md R13), the register names (R18), the host's transactions and their
responses (20_memory.md R35, R36), the reasons a step can stop, and the reset state (R32). -/

namespace Sys2Proof.Machine

/-- The registers by name: the 46 that R13 and the table of R18 list, where R13 counts 45 (DESIGN CHOICE: the list is
followed and not the count, log entry 14). -/
inductive Reg where
  /-- `ID`, a constant (R20). -/
  | id
  /-- `CMD`, which stores nothing (R21). -/
  | cmd
  /-- `STATUS` (R22). -/
  | status
  /-- `ELEN` (R23). -/
  | elen
  /-- `CSLEN` (R23). -/
  | cslen
  /-- `WCNT` (R23). -/
  | wcnt
  /-- `ENTWk` (R24). -/
  | entw (k : Fin 8)
  /-- `CSBWk` (R25). -/
  | csbw (k : Fin 8)
  /-- `IDXk` (R26). -/
  | idx (k : Fin 24)
  deriving DecidableEq, Repr

/-- One thing that causes a step (R14): a bus transaction of the host, or a reset. `off` is the byte offset from `BASE`
and `size` the size in bytes a bus may express; only size 4 is ever accepted (R41, log entry 8). -/
inductive BusEvent where
  /-- `BusRead(off)` (R35). -/
  | read (off : BitVec 8) (size : Nat)
  /-- `BusWrite(off, v)` (R36). -/
  | write (off : BitVec 8) (size : Nat) (v : Word)
  /-- Reset (R113, R114). -/
  | reset
  deriving DecidableEq, Repr

/-- The two-valued bus response (R35 to R37). -/
inductive Response where
  /-- `OKAY`. -/
  | okay
  /-- `ERROR`: the access is refused and changes nothing (R52). -/
  | error
  deriving DecidableEq, Repr

/-- What the block gave back for a transaction: a read returns a response and data (R35), a write a response (R36). -/
inductive Reply where
  /-- The pair a `BusRead` returns. -/
  | read (resp : Response) (data : Word)
  /-- The response of a `BusWrite`. -/
  | write (resp : Response)
  deriving DecidableEq, Repr

/-- Faults: there are none. "The block never traps, never interrupts and never stops" (R98), so this type is empty
(safe: no step of the model ends in a fault). -/
inductive Fault where
  deriving DecidableEq, Repr

/-- Refusals. -/
inductive Refusal where
  /-- Raised by an arm of `exec` for a command that has no meaning yet, and by nothing else; every command has its
  meaning, so no arm raises it (safe: a stop). -/
  | notModelled (mnemonic : String)
  deriving DecidableEq, Repr

/-- The state. The first seven fields are the registers of R18 that can change, 44 by its table where R13 counts 43
(DESIGN CHOICE: the table is followed, log entry 14); `ID` is a constant and `CMD` holds nothing, so neither has a field,
and `readReg` gives both. The last two fields are the model's own and not the block's:
the transactions the host has issued and the block has not yet performed, and the last reply (log entries 1 and 2). -/
structure State where
  /-- `STATUS` (R22). -/
  status : Word
  /-- `ELEN` (R23). -/
  elen : Word
  /-- `CSLEN` (R23). -/
  cslen : Word
  /-- `WCNT` (R23). -/
  wcnt : Word
  /-- `ENTW0` to `ENTW7` (R24). -/
  entw : Vector Word 8
  /-- `CSBW0` to `CSBW7` (R25). -/
  csbw : Vector Word 8
  /-- `IDX0` to `IDX23` (R26). -/
  idx : Vector Word 24
  /-- The events the bus has still to deliver, in the one total order of R46, the next one first. -/
  pending : List BusEvent
  /-- What the latest transaction gave back, `none` when there was none since reset. -/
  reply : Option Reply
  deriving DecidableEq, Repr

/-- What a step or a command of this machine answers. -/
abbrev Answer := Host.Outcome State Fault Refusal

/-- The state after reset (R32): every register 0. The model's own fields start with no event pending and no reply
(log entry 2). -/
def State.reset : State where
  status := 0
  elen := 0
  cslen := 0
  wcnt := 0
  entw := Vector.replicate 8 0
  csbw := Vector.replicate 8 0
  idx := Vector.replicate 24 0
  pending := []
  reply := none

end Sys2Proof.Machine
end

