-- ==== Sys2Proof/Machine/Operands.lean ====
section
/-! DEFINITION. The operands of the commands: the byte, bit and index views of the three buffers and the values their
length registers cut out of them (10_state.md R23 to R27). A position beyond a buffer reads as 0; only a state whose
length register is above its capacity, which no run reaches (R28), asks for one (log entry 4). -/

namespace Sys2Proof.Machine

/-- `ENT[j]`: byte `j` of the entropy buffer, in bits `31 - 8*(j mod 4)` down to `24 - 8*(j mod 4)` of `ENTW[j div 4]`
(R24, R38). -/
def State.ent (s : State) (j : Nat) : Byte := (s.entw[j / 4]?.getD 0).extractLsb' (24 - 8 * (j % 4)) 8

/-- `CSB[i]`: bit `i` of the checksum-bit buffer, bit `31 - (i mod 32)` of `CSBW[i div 32]` (R25, R39). -/
def State.csb (s : State) (i : Nat) : Bool := (s.csbw[i / 32]?.getD 0).getLsbD (31 - i % 32)

/-- `IDX[g]` as a word (R26). -/
def State.slot (s : State) (g : Nat) : Word := s.idx[g]?.getD 0

/-- The entropy, `ENT[0 .. ELEN-1]` (R24). -/
def State.entropy (s : State) : List Byte := (List.range s.elen.toNat).map s.ent

/-- The checksum bit sequence, `CSB[0 .. CSLEN-1]` (R25). -/
def State.checksum (s : State) : List Bool := (List.range s.cslen.toNat).map s.csb

/-- The index sequence, `IDX[0 .. WCNT-1]`, as unsigned numbers (R26, R40). -/
def State.indices (s : State) : List Nat := (List.range s.wcnt.toNat).map fun g => (s.slot g).toNat

/-- The least `g < WCNT` with `IDX[g] > 2047`, if there is one (R77, R83, R105). -/
def State.firstBadIndex (s : State) : Option Nat := s.indices.findIdx? fun v => decide (2047 < v)

end Sys2Proof.Machine
end

