-- ==== Sys2Proof/Machine/Ops.lean ====
section
/-! DEFINITION. The shared operations: how a command ends (60_exceptions.md R104, 00_scope.md R12), how it writes a value
into a buffer with its length (10_state.md R27), and how the host reads and stores a register (R18 to R26). -/

namespace Sys2Proof.Machine

/-- `raise X(eidx)`: the command ends with result `X`, and `STATUS` is the only register written (R104). This is the
block's whole form of an exception: nothing is saved, no mode changes and control goes nowhere, and there is nothing to
return from (R107). -/
def raise (op : BitVec 4) (r : ResultCode) (eidx : BitVec 5) (s : State) : Answer :=
  .next { s with status := mkStatus r op eidx }

/-- The end of a command without an error: `STATUS <- (RESULT = OK, LASTOP = op, EIDX = 0)` (R12, R22). -/
def finish (op : BitVec 4) (s : State) : Answer := .next { s with status := mkStatus .ok op 0 }

/-- The action of a word that is no command (R59, R103). -/
def illegalCommand (w : Word) (s : State) : Answer := raise (fieldOp w) .illegalCommand 0 s

/-- The words of the entropy buffer that hold `e` and zeros after it (R24, R27). -/
def entWords (e : List Byte) : Vector Word 8 :=
  Vector.ofFn fun k =>
    wordOfBytes (e.getD (4 * k) 0) (e.getD (4 * k + 1) 0) (e.getD (4 * k + 2) 0) (e.getD (4 * k + 3) 0)

/-- The words of the checksum-bit buffer that hold `c` and zeros after it (R25, R27). -/
def csbWords (c : List Bool) : Vector Word 8 :=
  Vector.ofFn fun k => BitVec.ofNat 32 (val ((List.range 32).map fun i => c.getD (32 * k + i) false))

/-- The slots of the index buffer that hold `w`, zero-extended, and zeros after it (R26, R27). -/
def idxWords (w : List Nat) : Vector Word 24 := Vector.ofFn fun g => BitVec.ofNat 32 (w.getD g 0)

/-- A command writes the entropy buffer: the whole buffer, and its length with it (R27). -/
def putEntropy (e : List Byte) (s : State) : State :=
  { s with entw := entWords e, elen := BitVec.ofNat 32 e.length }

/-- A command writes the checksum-bit buffer and its length (R27). -/
def putChecksum (c : List Bool) (s : State) : State :=
  { s with csbw := csbWords c, cslen := BitVec.ofNat 32 c.length }

/-- A command writes the index buffer and its length (R27). -/
def putIndices (w : List Nat) (s : State) : State :=
  { s with idx := idxWords w, wcnt := BitVec.ofNat 32 w.length }

/-- The byte offset of a register from `BASE` (R18). -/
def Reg.offset : Reg → BitVec 8
  | .id => 0x00
  | .cmd => 0x04
  | .status => 0x08
  | .elen => 0x0C
  | .cslen => 0x10
  | .wcnt => 0x14
  | .entw k => BitVec.ofNat 8 (0x20 + 4 * k)
  | .csbw k => BitVec.ofNat 8 (0x40 + 4 * k)
  | .idx k => BitVec.ofNat 8 (0x60 + 4 * k)

/-- The register at word `n` of the window, if there is one (R18). -/
def regAtWord (n : Nat) : Option Reg :=
  if n = 0 then some .id
  else if n = 1 then some .cmd
  else if n = 2 then some .status
  else if n = 3 then some .elen
  else if n = 4 then some .cslen
  else if n = 5 then some .wcnt
  else if n < 8 then none
  else if n < 16 then some (.entw (Fin.ofNat 8 (n - 8)))
  else if n < 24 then some (.csbw (Fin.ofNat 8 (n - 16)))
  else if n < 48 then some (.idx (Fin.ofNat 24 (n - 24)))
  else none

/-- The register at a byte offset: none at an offset that is no multiple of 4 (R41) and none at a reserved one (R18). -/
def regAt (off : BitVec 8) : Option Reg :=
  if off.toNat % 4 = 0 then regAtWord (off.toNat / 4) else none

/-- The value of a register as a read sees it (R35): `ID` is constant (R20), `CMD` reads as 0 (R21). -/
def readReg (s : State) : Reg → Word
  | .id => Config.idValue
  | .cmd => 0
  | .status => s.status
  | .elen => s.elen
  | .cslen => s.cslen
  | .wcnt => s.wcnt
  | .entw k => s.entw[k]
  | .csbw k => s.csbw[k]
  | .idx k => s.idx[k]

/-- A host's store to a register other than `CMD`, `none` where it is refused: `ID` and `STATUS` are read-only, and a
length register takes no value above its capacity (R19, R36, R52). `CMD` stores nothing (R21); a write to it is a
command and never comes here. -/
def storeReg (s : State) (r : Reg) (v : Word) : Option State :=
  match r with
  | .id => none
  | .cmd => none
  | .status => none
  | .elen => if v.toNat ≤ Config.entCap then some { s with elen := v } else none
  | .cslen => if v.toNat ≤ Config.csbCap then some { s with cslen := v } else none
  | .wcnt => if v.toNat ≤ Config.idxCap then some { s with wcnt := v } else none
  | .entw k => some { s with entw := s.entw.set k v }
  | .csbw k => some { s with csbw := s.csbw.set k v }
  | .idx k => some { s with idx := s.idx.set k v }

end Sys2Proof.Machine
end

