-- ==== Sys2Proof/Machine/BitPack.lean ====
section
/-! DEFINITION. The bit-packing codec's commands `PACK` and `UNPACK ebits` (41_bitpack.md). -/

namespace Sys2Proof.Machine

/-- `T` of `PACK`: the length of the combined stream, `8*ELEN + CSLEN` (R75). -/
def State.packBits (s : State) : Nat := 8 * s.elen.toNat + s.cslen.toNat

/-- `T` of `UNPACK`: the length of the combined stream, `11*WCNT` (R77). -/
def State.indexBits (s : State) : Nat := 11 * s.wcnt.toNat

/-- `PACK` (R75). -/
def execPack (s : State) : Answer :=
  if s.packBits % 11 ≠ 0 ∨ 24 < s.packBits / 11 then raise 2 .badParameter 0 s
  else finish 2 (putIndices (pack s.entropy s.checksum) s)

/-- `UNPACK ebits` (R77), the tests in the order given there. -/
def execUnpack (ebits : Nat) (s : State) : Answer :=
  match s.firstBadIndex with
  | some g => raise 3 .malformedIndex (BitVec.ofNat 5 g) s
  | none =>
    if ebits % 8 ≠ 0 then raise 3 .malformedIndex 31 s
    else if s.indexBits < ebits ∨ 256 < ebits ∨ 256 < s.indexBits - ebits then raise 3 .badParameter 0 s
    else finish 3 (putChecksum (unpack s.indices ebits).2 (putEntropy (unpack s.indices ebits).1 s))

end Sys2Proof.Machine
end

