-- ==== Sys2Proof/Machine/Checksum.lean ====
section
/-! DEFINITION. The checksum extractor's command `CKSUM n` (40_checksum.md). -/

namespace Sys2Proof.Machine

/-- `CKSUM n` for any hash function (R68). -/
def cksumWith (H : HashFn) (n : Nat) (s : State) : Answer :=
  if 256 < n then raise 1 .badParameter 0 s
  else finish 1 (putChecksum (checksumBits H s.entropy n) s)

/-- `CKSUM n` (R68). -/
def execCksum (n : Nat) (s : State) : Answer := cksumWith hashPort n s

end Sys2Proof.Machine
end

