-- ==== Sys2Proof/Machine/Control.lean ====
section
/-! DEFINITION. The control commands `NOP` and `CLEAR` (43_control.md). -/

namespace Sys2Proof.Machine

/-- `NOP` (R87). -/
def execNop (s : State) : Answer := finish 0 s

/-- `CLEAR` (R88): every writable register to 0. -/
def execClear (s : State) : Answer := finish 6 (putIndices [] (putChecksum [] (putEntropy [] s)))

end Sys2Proof.Machine
end

