-- ==== Sys2Proof/Machine/MnemonicSeq.lean ====
section
/-! DEFINITION. The index-level steps of the Mnemonic Engine, the commands `ENCODE` and `DECODE` (42_mnemonic_seq.md). -/

namespace Sys2Proof.Machine

/-- The checksum of an entropy of `len` bytes has `8*len/32` bits (R5, R82). -/
def checksumLength (len : Nat) : Nat := 8 * len / 32

/-- The entropy of a sequence of `count` words has `count*11*32/33` bits (R83). -/
def entropyBits (count : Nat) : Nat := count * 11 * 32 / 33

/-- The checksum that `ENCODE` computes from the entropy buffer (R82, steps 2 and 3). -/
def State.ownChecksum (H : HashFn) (s : State) : List Bool :=
  checksumBits H s.entropy (checksumLength s.elen.toNat)

/-- `ENCODE` for any hash function (R82). -/
def encodeWith (H : HashFn) (s : State) : Answer :=
  if s.elen.toNat ∈ Config.entLengths then
    finish 4 (putIndices (pack s.entropy (s.ownChecksum H)) (putChecksum (s.ownChecksum H) s))
  else raise 4 .invalidEntropyLength 0 s

/-- `ENCODE` (R82). -/
def execEncode (s : State) : Answer := encodeWith hashPort s

/-- The entropy that `DECODE` unpacks from the index buffer (R83, step 4). -/
def State.decodedEntropy (s : State) : List Byte := (unpack s.indices (entropyBits s.wcnt.toNat)).1

/-- The checksum that `DECODE` extracts from the index buffer (R83, step 4). -/
def State.decodedChecksum (s : State) : List Bool := (unpack s.indices (entropyBits s.wcnt.toNat)).2

/-- The checksum that `DECODE` expects (R83, step 5), of `n = ebits/32` bits. -/
def State.expectedChecksum (H : HashFn) (s : State) : List Bool :=
  checksumBits H s.decodedEntropy (entropyBits s.wcnt.toNat / 32)

/-- `DECODE` for any hash function (R83), the tests in the order given there. -/
def decodeWith (H : HashFn) (s : State) : Answer :=
  if s.wcnt.toNat ∈ Config.wordCounts then
    match s.firstBadIndex with
    | some g => raise 5 .malformedIndex (BitVec.ofNat 5 g) s
    | none =>
      if s.decodedChecksum = s.expectedChecksum H then
        finish 5 (putChecksum s.decodedChecksum (putEntropy s.decodedEntropy s))
      else raise 5 .invalidChecksum 0 s
  else raise 5 .invalidWordCount 0 s

/-- `DECODE` (R83). -/
def execDecode (s : State) : Answer := decodeWith hashPort s

end Sys2Proof.Machine
end

