-- ==== Sys2Proof/Machine/Bus.lean ====
section
/-! DEFINITION. The two bus transactions (20_memory.md R35, R36), a command inside the write that carries it (R45), the
reset event (70_reset_and_hazards.md R113) and the window in the bus address space (R8, R44). -/

namespace Sys2Proof.Machine

/-- `BusRead(off)` (R35): response and data. A read changes nothing. -/
def busRead (s : State) (off : BitVec 8) (size : Nat) : Response × Word :=
  if size = 4 then
    match regAt off with
    | some r => (.okay, readReg s r)
    | none => (.error, 0)
  else (.error, 0)

/-- The word `w` written to `CMD` (R65): the command is executed whole, or the word is illegal. -/
def runWord (w : Word) (s : State) : Answer :=
  match decode w with
  | .ok i => exec i s
  | .error _ => illegalCommand w s

/-- The state with the response of a write recorded. -/
def State.answerWrite (s : State) (resp : Response) : State := { s with reply := some (.write resp) }

/-- A write to a register other than `CMD` (R36, R52). -/
def writeStorage (s : State) (r : Reg) (v : Word) : Answer :=
  match storeReg s r v with
  | some t => .next (t.answerWrite .okay)
  | none => .next (s.answerWrite .error)

/-- `BusWrite(off, v)` (R36, R52). A write to `CMD` gets `OKAY` whatever the command's result. -/
def busWrite (s : State) (off : BitVec 8) (size : Nat) (v : Word) : Answer :=
  if size = 4 then
    match regAt off with
    | some .cmd => runWord v (s.answerWrite .okay)
    | some r => writeStorage s r v
    | none => .next (s.answerWrite .error)
  else .next (s.answerWrite .error)

/-- One event, performed whole (R14, R42, R45, R114). A reset leaves the events that have still to come. -/
def perform (s : State) : BusEvent → Answer
  | .read off size => .next { s with reply := some (.read (busRead s off size).1 (busRead s off size).2) }
  | .write off size v => busWrite s off size v
  | .reset => .next { State.reset with pending := s.pending }

/-- The next event of the bus is taken and performed (R46). With none pending the block waits and nothing changes
(log entry 3). -/
def serve (s : State) : Answer :=
  match s.pending with
  | [] => .next s
  | ev :: rest => perform { s with pending := rest } ev

/-- The offset of a bus address in the window of the block, `none` outside it: such an address never reaches the block
(R44). -/
def windowOffset (addr : Nat) : Option (BitVec 8) :=
  if Config.base ≤ addr ∧ addr < Config.base + Config.window then some (BitVec.ofNat 8 (addr - Config.base)) else none

/-- The event that a master's read of a bus address is at the block (R44). -/
def readAtAddress (addr size : Nat) : Option BusEvent := (windowOffset addr).map fun off => .read off size

/-- The event that a master's write to a bus address is at the block (R44). -/
def writeAtAddress (addr size : Nat) (v : Word) : Option BusEvent :=
  (windowOffset addr).map fun off => .write off size v

end Sys2Proof.Machine
end

