-- ==== Sys2Proof/Machine/Step.lean ====
section
/-! DEFINITION. The step function: one reset, one `BusRead` or one `BusWrite` (10_state.md R14; INDEX.md). -/

namespace Sys2Proof.Machine

/-- One step of the machine: the next event of the bus. -/
def step (s : State) : Host.Outcome State Fault Refusal := serve s

/-- The state with a write of a command word to `CMD` as the next event of the bus: how a command reaches this block,
which fetches nothing (10_state.md R16). The word's bits are those of `w` below `nbits`. -/
def State.withFetchWord (s : State) (nbits w : Nat) : State :=
  { s with pending := .write Reg.cmd.offset 4 (BitVec.ofNat 32 (w % 2 ^ nbits)) :: s.pending }

end Sys2Proof.Machine
end

