-- ==== Sys2Proof/Machine/Script.lean ====
section
/-! DEFINITION. The text notation for a host's actions and its pseudo-instructions (30_encoding.md R63, R64), as the bus
events each line stands for. -/

namespace Sys2Proof.Machine

/-- One line of the notation. `chk` is `RD` with a claim about the data, which `chkHolds` judges. -/
inductive HostAction where
  /-- `WR reg, value` with a register name. -/
  | wr (r : Reg) (v : Word)
  /-- `RD reg` with a register name. -/
  | rd (r : Reg)
  /-- `WR reg, value` with a numeric offset. -/
  | wrAt (off : BitVec 8) (v : Word)
  /-- `RD reg` with a numeric offset. -/
  | rdAt (off : BitVec 8)
  /-- A command mnemonic on a line of its own. -/
  | command (i : Instr)
  /-- `LDENT b0 b1 ...`. -/
  | ldent (e : List Byte)
  /-- `LDIDX i0, i1, ...`. -/
  | ldidx (w : List Word)
  /-- `LDCSB n, word0, word1, ...`. -/
  | ldcsb (n : Word) (ws : List Word)
  /-- `CHK reg, value`. -/
  | chk (r : Reg) (v : Word)
  deriving DecidableEq, Repr

/-- Writes of consecutive words, the first at `off`. -/
def wordWrites (off : BitVec 8) : List Word → List BusEvent
  | [] => []
  | w :: ws => .write off 4 w :: wordWrites (off + 4) ws

/-- The words `LDENT` writes: bytes `4k` to `4k+3` in word `k`, absent bytes as `00` (R64). -/
def ldentWords (e : List Byte) : List Word := (groups 4 ((e.length + 3) / 4) e).map beWord

/-- The bus events of a line (R63, R64). -/
def HostAction.events : HostAction → List BusEvent
  | .wr r v => [.write r.offset 4 v]
  | .rd r => [.read r.offset 4]
  | .wrAt off v => [.write off 4 v]
  | .rdAt off => [.read off 4]
  | .command i => [.write Reg.cmd.offset 4 (encode i)]
  | .ldent e => .write Reg.elen.offset 4 (BitVec.ofNat 32 e.length) :: wordWrites (Reg.entw 0).offset (ldentWords e)
  | .ldidx w => .write Reg.wcnt.offset 4 (BitVec.ofNat 32 w.length) :: wordWrites (Reg.idx 0).offset w
  | .ldcsb n ws => .write Reg.cslen.offset 4 n :: wordWrites (Reg.csbw 0).offset ws
  | .chk r _ => [.read r.offset 4]

/-- The claim of `CHK reg, value`: the data read equals the value (R64). -/
def chkHolds (v : Word) (reply : Option Reply) : Bool :=
  match reply with
  | some (.read _ data) => data = v
  | _ => false

end Sys2Proof.Machine
end

