-- ==== Sys2Proof/Safety.lean ====
section
/-! DEFINITION. The terms claims use: the invariants of 10_state.md R28 and of 60_exceptions.md R105 and R112, the
reachable states, and the frame of each command (R33). -/

namespace Sys2Proof.Machine

/-- The invariants R28 gives: the length registers within their capacities, the reserved bits of `STATUS` zero, and
`STATUS.RESULT` at most 6. -/
abbrev State.InRange (s : State) : Prop :=
  s.elen.toNat ≤ 32 ∧ s.cslen.toNat ≤ 256 ∧ s.wcnt.toNat ≤ 24 ∧
    statusReserved s.status = 0 ∧ (statusResult s.status).toNat ≤ 6

/-- The results a command word with low bits `op` can end with: the matrix of R112, by opcode. A word with opcode 7 to
15 is always illegal, and a word with any opcode can be. -/
def resultAllowed (op : Nat) : ResultCode → Bool
  | .ok => op ≤ 6
  | .invalidEntropyLength => op = 4
  | .invalidWordCount => op = 5
  | .invalidChecksum => op = 5
  | .malformedIndex => op = 3 ∨ op = 5
  | .badParameter => op = 1 ∨ op = 2 ∨ op = 3
  | .illegalCommand => true

/-- The values of `STATUS.EIDX` that go with a result (R105): a slot number, or 31 from `UNPACK`, for
`MALFORMED_INDEX`, and 0 for every other result. -/
def eidxAllowed (op : Nat) (eidx : Nat) : ResultCode → Bool
  | .malformedIndex => eidx < 24 ∨ (eidx = 31 ∧ op = 3)
  | _ => eidx = 0

/-- A value of `STATUS` whose three fields can stand together (R99, R105, R112). -/
def StatusLegal (w : Word) : Prop :=
  ∃ (r : ResultCode) (op : BitVec 4) (eidx : BitVec 5),
    w = mkStatus r op eidx ∧ resultAllowed op.toNat r = true ∧ eidxAllowed op.toNat eidx.toNat r = true

/-- A state that the host's transactions and resets, whatever they are, lead to from reset (R28). -/
def State.Reachable (t : State) : Prop :=
  ∃ (events : List BusEvent) (n : Nat), Sys2Proof.core.run n { State.reset with pending := events } = .next t

/-- Two states whose registers are equal: every read gives the same data in both. The model's own fields may differ. -/
def SameRegisters (s t : State) : Prop := ∀ r : Reg, readReg t r = readReg s r

/-- The registers a command writes when it ends with `OK`: the last column of R33. -/
def writes : Instr → Reg → Bool
  | .nop, r => r = .status
  | .cksum _, r =>
    match r with
    | .status | .cslen | .csbw _ => true
    | _ => false
  | .pack, r =>
    match r with
    | .status | .wcnt | .idx _ => true
    | _ => false
  | .unpack _, r =>
    match r with
    | .status | .elen | .entw _ | .cslen | .csbw _ => true
    | _ => false
  | .encode, r =>
    match r with
    | .status | .cslen | .csbw _ | .wcnt | .idx _ => true
    | _ => false
  | .decode, r =>
    match r with
    | .status | .elen | .entw _ | .cslen | .csbw _ => true
    | _ => false
  | .clear, r => r ≠ .id ∧ r ≠ .cmd

/-- Two states that agree on what a command reads: the middle column of R33. A value is cut out of its buffer by its
length register, so nothing beyond a length is compared (R27). -/
def SameReads : Instr → State → State → Prop
  | .nop, _, _ => True
  | .cksum _, s, t => s.entropy = t.entropy
  | .pack, s, t => s.entropy = t.entropy ∧ s.checksum = t.checksum
  | .unpack _, s, t => s.indices = t.indices
  | .encode, s, t => s.entropy = t.entropy
  | .decode, s, t => s.indices = t.indices
  | .clear, _, _ => True

/-- The reads that get `ERROR` (R52 (a), (b)): a size that is not 4, a misaligned offset, a reserved offset. -/
abbrev ReadRefused (off : BitVec 8) (size : Nat) : Prop :=
  size ≠ 4 ∨ off.toNat % 4 ≠ 0 ∨ off.toNat = 0x18 ∨ off.toNat = 0x1C ∨ 0xC0 ≤ off.toNat

/-- The writes that get `ERROR` (R52): those of `ReadRefused`, writes to `ID` and `STATUS`, and lengths above the
capacity of their register. -/
abbrev WriteRefused (off : BitVec 8) (size : Nat) (v : Word) : Prop :=
  ReadRefused off size ∨ off.toNat = 0x00 ∨ off.toNat = 0x08 ∨ (off.toNat = 0x0C ∧ 32 < v.toNat) ∨
    (off.toNat = 0x10 ∧ 256 < v.toNat) ∨ (off.toNat = 0x14 ∧ 24 < v.toNat)

/-- The state with bit `p` of the stream of its index sequence flipped (R85): slot `p div 11` changes by
`2^(10 - p mod 11)`. -/
def State.flipStreamBit (s : State) (p : Nat) : State :=
  { s with idx := s.idx.setIfInBounds (p / 11) (s.slot (p / 11) ^^^ BitVec.ofNat 32 (2 ^ (10 - p % 11))) }

/-- The model's own fields, the bus events still to come and the latest reply, are the same in both states. -/
def SameBus (s t : State) : Prop := t.pending = s.pending ∧ t.reply = s.reply

end Sys2Proof.Machine
end

