-- ==== Sys2Proof/Certificates/Slice0/Obligations.lean ====
section
/-! DEFINITION. The statements for the provers, from the numbered rules of the spec. -/

open Sys2Proof Sys2Proof.Machine

/-! ### Reset and invariants -/

/-- R32: the value of every register after reset, and that `CLEAR` leaves the same but for `STATUS.LASTOP`. -/
def Obligations.ResetRegisterValues : Prop :=
  (∀ r, readReg State.reset r = if r = .id then 0x42503339 else 0) ∧
  ∀ s, ∃ t, exec .clear s = .next t ∧ ∀ r, readReg t r = if r = .status then 0x60 else readReg State.reset r

/-- 70_reset_and_hazards.md section 1 (R113, R114): the reset event puts every register to its reset value. That the
events still to come stay and that there is then no reply is the model's choice (log entry 9). -/
def Obligations.ResetEventRestoresRegisters : Prop :=
  ∀ s rest, s.pending = .reset :: rest →
    ∃ t, step s = .next t ∧ (∀ r, readReg t r = readReg State.reset r) ∧ t.pending = rest ∧ t.reply = none

/-- The reset state meets both invariants stated below. -/
def Obligations.ResetMeetsInvariants : Prop := State.reset.InRange ∧ StatusLegal State.reset.status

/-- R28: every step keeps the length registers within their capacities, the reserved bits of `STATUS` at 0 and
`STATUS.RESULT` at most 6. -/
def Obligations.StepKeepsRegistersInRange : Prop := ∀ s t, s.InRange → step s = .next t → t.InRange

/-- R99, R105, R112: every step keeps `STATUS` at a value whose result, opcode and error index can stand together. -/
def Obligations.StepKeepsStatusLegal : Prop :=
  ∀ s t, StatusLegal s.status → step s = .next t → StatusLegal t.status

/-- R28: the invariants hold in every reachable state, and no invariant ties the buffers and the lengths together: any
values of theirs within the capacities stand together in some reachable state. So the checksum need not be that of the
entropy, nor the indices its packing. -/
def Obligations.ReachableStatesInRange : Prop :=
  (∀ t : State, t.Reachable → t.InRange) ∧
  (∀ (elen cslen wcnt : Word) (entw csbw : Vector Word 8) (idx : Vector Word 24),
    elen.toNat ≤ 32 → cslen.toNat ≤ 256 → wcnt.toNat ≤ 24 →
    ∃ t : State, t.Reachable ∧ t.elen = elen ∧ t.cslen = cslen ∧ t.wcnt = wcnt ∧
      t.entw = entw ∧ t.csbw = csbw ∧ t.idx = idx) ∧
  (∃ t : State, t.Reachable ∧ t.checksum ≠ checksumBits hashPort t.entropy t.checksum.length) ∧
  (∃ t : State, t.Reachable ∧ t.indices ≠ pack t.entropy t.checksum)

/-! ### The bus and the step -/

/-- 60_exceptions.md section 1 (R98) and 20_memory.md R52: every step answers a next state, and an access that got
`ERROR` changed no register. That a step takes the next event and leaves the others pending is the model's choice: the
field is its own (log entry 1), and a reset too leaves the later events (log entry 9). -/
def Obligations.EveryStepGoesOn : Prop :=
  ∀ s, ∃ t, step s = .next t ∧ ∀ ev rest, s.pending = ev :: rest →
    t.pending = rest ∧
    (t.reply = some (.write .error) ∨ (∃ data, t.reply = some (.read .error data)) → SameRegisters s t)

/-- A write of a command word to `CMD` runs the decoded command, whole, in that step, on the state from which the write
has been taken and whose response is `OKAY` (R21, R45, R65). The two fields named are the model's own (log entries 1
and 2). -/
def Obligations.StepRunsDecodedCommand : Prop :=
  ∀ s rest w i, s.pending = .write 0x04 4 w :: rest → decode w = .ok i →
    step s = exec i { s with pending := rest, reply := some (.write .okay) }

/-- The model's choice (log entry 3): with no event pending a step changes nothing. -/
def Obligations.IdleStepChangesNothing : Prop := ∀ s, s.pending = [] → step s = .next s

/-- R18: which offset holds which register, and which offsets hold none. -/
def Obligations.RegisterWindowMap : Prop :=
  (∀ off r, regAt off = some r ↔ r.offset = off) ∧
  (∀ off, regAt off = none ↔ off.toNat % 4 ≠ 0 ∨ off.toNat = 0x18 ∨ off.toNat = 0x1C ∨ 0xC0 ≤ off.toNat) ∧
  Reg.id.offset = 0x00 ∧ Reg.cmd.offset = 0x04 ∧ Reg.status.offset = 0x08 ∧
  Reg.elen.offset = 0x0C ∧ Reg.cslen.offset = 0x10 ∧ Reg.wcnt.offset = 0x14 ∧
  (∀ k : Fin 8, (Reg.entw k).offset.toNat = 0x20 + 4 * k.val) ∧
  (∀ k : Fin 8, (Reg.csbw k).offset.toNat = 0x40 + 4 * k.val) ∧
  (∀ k : Fin 24, (Reg.idx k).offset.toNat = 0x60 + 4 * k.val)

/-- R35: a read of a register returns `OKAY` and its value, any other read returns `ERROR` and 0, and no read changes
any register. `ID` reads as its constant and `CMD` as 0. -/
def Obligations.BusReadReturnsRegister : Prop :=
  ∀ s rest off size, s.pending = .read off size :: rest →
    (∀ r : Reg, size = 4 → r.offset = off →
      step s = .next { s with pending := rest, reply := some (.read .okay (readReg s r)) }) ∧
    ((size ≠ 4 ∨ ∀ r : Reg, r.offset ≠ off) →
      step s = .next { s with pending := rest, reply := some (.read .error 0) }) ∧
    readReg s .id = 0x42503339 ∧ readReg s .cmd = 0

/-- R52: the accesses that get `ERROR` are exactly those of its cases (a) to (d), they change no register, and every
other access gets `OKAY`. -/
def Obligations.BusErrorCases : Prop :=
  (∀ s rest off size, s.pending = .read off size :: rest →
    ∃ t data, step s = .next t ∧ SameRegisters s t ∧
      t.reply = some (.read (if ReadRefused off size then .error else .okay) data)) ∧
  (∀ s rest off size v, s.pending = .write off size v :: rest →
    ∃ t, step s = .next t ∧ t.reply = some (.write (if WriteRefused off size v then .error else .okay)) ∧
      (WriteRefused off size v → SameRegisters s t))

/-- R36, R43: a write that is not refused to a register other than `CMD` stores the value there and changes no other
register. -/
def Obligations.HostWriteChangesOneRegister : Prop :=
  ∀ s rest (r : Reg) v, s.pending = .write r.offset 4 v :: rest → r ≠ .cmd → ¬WriteRefused r.offset 4 v →
    ∃ t, step s = .next t ∧ t.pending = rest ∧ t.reply = some (.write .okay) ∧
      ∀ r', readReg t r' = if r' = r then v else readReg s r'

/-- R54: the worked examples of accesses, from reset. -/
def Obligations.AccessExamplesFromReset : Prop :=
  (∃ t u, step { State.reset with pending := [.write 0x0C 4 32] } = .next t ∧
    t.reply = some (.write .okay) ∧ t.elen = 32 ∧
    step { t with pending := [.write 0x0C 4 33] } = .next u ∧ u.reply = some (.write .error) ∧ u.elen = 32) ∧
  (∀ p ∈ ([(0x0C, 0x100, .error), (0x10, 256, .okay), (0x10, 257, .error), (0x14, 24, .okay), (0x14, 25, .error),
      (0x00, 1, .error), (0x08, 1, .error), (0x18, 0, .error), (0xC0, 0, .error), (0xFC, 0, .error),
      (0x21, 0, .error)] : List (BitVec 8 × Word × Response)),
    ∃ t, step { State.reset with pending := [.write p.1 4 p.2.1] } = .next t ∧ t.reply = some (.write p.2.2)) ∧
  (∃ t, step { State.reset with pending := [.write 0x60 4 0xFFFFFFFF] } = .next t ∧
    t.reply = some (.write .okay) ∧ readReg t (.idx 0) = 0xFFFFFFFF) ∧
  (∀ p ∈ ([(0x00, .okay, 0x42503339), (0x04, .okay, 0), (0x18, .error, 0), (0xC0, .error, 0),
      (0x22, .error, 0)] : List (BitVec 8 × Response × Word)),
    ∃ t, step { State.reset with pending := [.read p.1 4] } = .next t ∧ t.reply = some (.read p.2.1 p.2.2))

/-- R22: a write to `CMD` leaves the low four bits of its word in `STATUS.LASTOP` and zeros in bits 31:13, and no other
event but a reset changes `STATUS`. -/
def Obligations.StatusWrittenByCommandsAndReset : Prop :=
  ∀ s ev rest, s.pending = ev :: rest →
    (∀ w, ev = .write 0x04 4 w →
      ∃ t, step s = .next t ∧ (statusLastop t.status).toNat = w.toNat % 16 ∧ statusReserved t.status = 0) ∧
    ((∀ w, ev ≠ .write 0x04 4 w) → ev ≠ .reset → ∃ t, step s = .next t ∧ t.status = s.status)

/-- R8, R44: a bus address is an offset of the window exactly when it is `BASE` plus that offset, and its alignment is
the offset's. It holds whatever `BASE` is. -/
def Obligations.BusAddressesOfTheWindow : Prop :=
  (∀ addr off, windowOffset addr = some off ↔ addr = Config.base + off.toNat) ∧
  (∀ addr off, windowOffset addr = some off → addr % 4 = off.toNat % 4) ∧
  (∀ addr, windowOffset addr = none ↔ addr < Config.base ∨ Config.base + 256 ≤ addr)

/-- R64: after the transactions of `LDENT`, from any state, the entropy is the bytes named, and the words after the last
one written are as they were. -/
def Obligations.LdentLoadsTheEntropy : Prop :=
  ∀ (s : State) (e : List Byte), e.length ≤ 32 →
    ∃ t : State, Sys2Proof.core.run (HostAction.ldent e).events.length
        { s with pending := (HostAction.ldent e).events } = .next t ∧
      t.entropy = e ∧ ∀ k : Fin 8, (e.length + 3) / 4 ≤ k.val → readReg t (.entw k) = readReg s (.entw k)

/-! ### Command words -/

/-- R58: a word is the command of a row exactly when `(w AND mask) = match`, and the command words of `CKSUM n` and
`UNPACK ebits`. -/
def Obligations.RowsOfTheOpcodeMap : Prop :=
  (∀ w : Word,
    (decode w = .ok .nop ↔ w &&& 0xFFFFFFFF = 0x00000000) ∧
    (∀ n, decode w = .ok (.cksum n) ↔ w &&& 0xFFFFE00F = 0x00000001 ∧ n = w.toNat / 16 % 512) ∧
    (decode w = .ok .pack ↔ w &&& 0xFFFFFFFF = 0x00000002) ∧
    (∀ ebits, decode w = .ok (.unpack ebits) ↔ w &&& 0xFFFFE00F = 0x00000003 ∧ ebits = w.toNat / 16 % 512) ∧
    (decode w = .ok .encode ↔ w &&& 0xFFFFFFFF = 0x00000004) ∧
    (decode w = .ok .decode ↔ w &&& 0xFFFFFFFF = 0x00000005) ∧
    (decode w = .ok .clear ↔ w &&& 0xFFFFFFFF = 0x00000006)) ∧
  (∀ n < 512, encode (.cksum n) = BitVec.ofNat 32 (0x00000001 + 16 * n)) ∧
  (∀ ebits < 512, encode (.unpack ebits) = BitVec.ofNat 32 (0x00000003 + 16 * ebits))

/-- R59, R103: which words are legal, what a word that is not does, and that 1029 words are legal. -/
def Obligations.IllegalWordsAndTheirEffect : Prop :=
  (∀ w : Word, (∃ i, decode w = .ok i) ↔
    w.toNat / 8192 = 0 ∧ (w.toNat % 16 = 1 ∨ w.toNat % 16 = 3 ∨
      (w.toNat % 16 ∈ [0, 2, 4, 5, 6] ∧ w.toNat / 16 % 512 = 0))) ∧
  (∀ w : Word, (∀ i, decode w ≠ .ok i) → ∀ s rest, s.pending = .write 0x04 4 w :: rest →
    step s = .next { s with pending := rest, reply := some (.write .okay),
                            status := BitVec.ofNat 32 (6 + 16 * (w.toNat % 16)) }) ∧
  (∃ legal : List Word, legal.Nodup ∧ legal.length = 1029 ∧ ∀ w, w ∈ legal ↔ ∃ i, decode w = .ok i)

/-- R65: the decoder, case by case, on the three fields as numbers, and what the write of the word leads to. -/
def Obligations.DecodingIsTotal : Prop :=
  ∀ (w : Word) (op imm z : Nat), op = w.toNat % 16 → imm = w.toNat / 16 % 512 → z = w.toNat / 8192 →
    (z ≠ 0 → ∀ i, decode w ≠ .ok i) ∧
    (z = 0 → op = 1 → decode w = .ok (.cksum imm)) ∧
    (z = 0 → op = 3 → decode w = .ok (.unpack imm)) ∧
    (z = 0 → imm = 0 → (op = 0 → decode w = .ok .nop) ∧ (op = 2 → decode w = .ok .pack) ∧
      (op = 4 → decode w = .ok .encode) ∧ (op = 5 → decode w = .ok .decode) ∧ (op = 6 → decode w = .ok .clear)) ∧
    (z = 0 → (op ∈ [0, 2, 4, 5, 6] ∧ imm ≠ 0 ∨ 7 ≤ op) → ∀ i, decode w ≠ .ok i) ∧
    (∀ s rest, s.pending = .write 0x04 4 w :: rest → ∃ t, step s = .next t ∧ (statusLastop t.status).toNat = op ∧
      (∀ i, decode w = .ok i → exec i { s with pending := rest, reply := some (.write .okay) } = .next t) ∧
      ((∀ i, decode w ≠ .ok i) → t = { s with pending := rest, reply := some (.write .okay),
                                               status := BitVec.ofNat 32 (6 + 16 * op) }))

/-- R66: the command words written out there, legal and illegal. -/
def Obligations.SampleCommandWords : Prop :=
  (∀ p ∈ ([(.nop, 0x00000000), (.cksum 0, 0x00000001), (.cksum 4, 0x00000041), (.cksum 8, 0x00000081),
      (.cksum 256, 0x00001001), (.cksum 257, 0x00001011), (.pack, 0x00000002), (.unpack 0, 0x00000003),
      (.unpack 128, 0x00000803), (.unpack 160, 0x00000A03), (.unpack 192, 0x00000C03), (.unpack 224, 0x00000E03),
      (.unpack 256, 0x00001003), (.encode, 0x00000004), (.decode, 0x00000005),
      (.clear, 0x00000006)] : List (Instr × Word)), decode p.2 = .ok p.1 ∧ encode p.1 = p.2) ∧
  (∀ w ∈ ([0x00000007, 0x0000000F, 0x00000010, 0x00000012, 0x00000014, 0x00000015, 0x00000016, 0x00002000, 0x00002003,
      0x80000001] : List Word), ∀ i, decode w ≠ .ok i)

/-- Decoding the command word of a well-formed command gives the command back, with any immediate the field admits. -/
def Obligations.DecodeOfEncode : Prop := ∀ i : Instr, i.WellFormed → decode (encode i) = .ok i

/-- A legal word is the command word of the command it decodes to, and that command is well formed. -/
def Obligations.EncodeOfDecode : Prop := ∀ w i, decode w = .ok i → i.WellFormed ∧ encode i = w

/-! ### The buffers -/

/-- R24, R25, R38, R39: the bits of the words of a buffer, word 0 first and each from bit 31 down, are the bit stream of
its bytes, or its bits in order. -/
def Obligations.BufferWordsAreTheBitStream : Prop :=
  ∀ s : State,
    s.entw.toList.flatMap (fun w => bitsOf 32 w.toNat) = bits ((List.range 32).map s.ent) ∧
    s.csbw.toList.flatMap (fun w => bitsOf 32 w.toNat) = (List.range 256).map s.csb

/-- R39: a checksum of at most 32 bits, as a number, is the top bits of `CSBW0`. -/
def Obligations.ShortChecksumIsTopOfFirstWord : Prop :=
  ∀ s : State, s.cslen.toNat ≤ 32 → val s.checksum = (readReg s (.csbw 0)).toNat / 2 ^ (32 - s.cslen.toNat)

/-- R27: after a command that ended `OK`, each buffer it wrote is zero at and beyond its length. -/
def Obligations.WrittenBuffersAreZeroBeyondTheirLength : Prop :=
  ∀ i s t, exec i s = .next t → statusResult t.status = 0 →
    (writes i .elen = true → ∀ j, t.elen.toNat ≤ j → j < 32 → t.ent j = 0) ∧
    (writes i .cslen = true → ∀ k, t.cslen.toNat ≤ k → k < 256 → t.csb k = false) ∧
    (writes i .wcnt = true → ∀ g, t.wcnt.toNat ≤ g → g < 24 → t.slot g = 0)

/-! ### The commands -/

/-- R87: `NOP`. -/
def Obligations.NopResetsStatusOnly : Prop :=
  decode 0x00000000 = .ok .nop ∧ (∀ s, exec .nop s = .next { s with status := 0x00000000 }) ∧
  (∀ n, 0 < n → n < 512 → ∀ i, decode (BitVec.ofNat 32 (16 * n)) ≠ .ok i)

/-- R88: `CLEAR`. The bus fields are the model's own and stay. -/
def Obligations.ClearZeroesEveryWritableRegister : Prop :=
  decode 0x00000006 = .ok .clear ∧
  ∀ s, exec .clear s = .next { State.reset with status := 0x00000060, pending := s.pending, reply := s.reply }

/-- R68: `CKSUM n`, with its encoding, both ways it ends, and everything else unchanged. -/
def Obligations.CksumWritesLeadingDigestBits : Prop :=
  (∀ n < 512, decode (BitVec.ofNat 32 (0x00000001 + 16 * n)) = .ok (.cksum n)) ∧
  ∀ (n : Nat) (s : State),
    (n ≤ 256 → ∃ t, exec (.cksum n) s = .next t ∧
      t = { s with csbw := t.csbw, cslen := BitVec.ofNat 32 n, status := 0x10 } ∧
      ∀ i < 256, t.csb i = if i < n then (sha256 s.entropy).getMsbD i else false) ∧
    (256 < n → exec (.cksum n) s = .next { s with status := 0x15 })

/-- R96: `CKSUM 256` leaves the eight words of the final hash value in `CSBW0` to `CSBW7`. -/
def Obligations.FullDigestFillsTheChecksumWords : Prop :=
  ∀ s, ∃ t, exec (.cksum 256) s = .next t ∧ t.csbw.toList = (shaValue s.entropy).words

/-- R69: a shorter checksum is the start of a longer one, and the checksum of a valid entropy, as a number, is the top
bits of the first digest byte. It holds for every hash function. -/
def Obligations.ChecksumBitsOfADigest : Prop :=
  (∀ (H : HashFn) e m n, m ≤ n → n ≤ 256 → checksumBits H e m = (checksumBits H e n).take m) ∧
  (∀ (H : HashFn) (e : List Byte) (n firstByte : Nat), e.length ∈ [16, 20, 24, 28, 32] → n = 8 * e.length / 32 →
    firstByte = (H e).toNat / 2 ^ 248 → val (checksumBits H e n) = firstByte / 2 ^ (8 - n))

/-- R75: `PACK`, with its encoding, both ways it ends, and everything else unchanged. -/
def Obligations.PackGroupsTheStream : Prop :=
  decode 0x00000002 = .ok .pack ∧
  ∀ (s : State) (total : Nat), total = 8 * s.elen.toNat + s.cslen.toNat →
    (total % 11 = 0 → total / 11 ≤ 24 → ∃ t, exec .pack s = .next t ∧
      t = { s with idx := t.idx, wcnt := BitVec.ofNat 32 (total / 11), status := 0x20 } ∧
      ∀ g < 24, (t.slot g).toNat =
        if g < total / 11 then val (((bits s.entropy ++ s.checksum).drop (11 * g)).take 11) else 0) ∧
    (total % 11 ≠ 0 ∨ 24 < total / 11 → exec .pack s = .next { s with status := 0x25 })

/-- R79 (a): the indices of `pack` are the base-2048 digits of the combined stream read as one number. -/
def Obligations.PackAsOneNumber : Prop :=
  ∀ (e : List Byte) (c : List Bool) (count number : Nat), 8 * e.length + c.length = 11 * count →
    number = val (bits e) * 2 ^ c.length + val c →
    pack e c = (List.range count).map fun g => number / 2 ^ (11 * (count - 1 - g)) % 2048

/-- R77: `UNPACK ebits`, with its encoding, the four ways it ends in the order of its tests, and everything else
unchanged. -/
def Obligations.UnpackSplitsTheStream : Prop :=
  (∀ n < 512, decode (BitVec.ofNat 32 (0x00000003 + 16 * n)) = .ok (.unpack n)) ∧
  ∀ (ebits : Nat) (s : State) (total : Nat), total = 11 * s.wcnt.toNat →
    (∀ g < s.wcnt.toNat, 2047 < (s.slot g).toNat → (∀ k < g, (s.slot k).toNat ≤ 2047) →
      exec (.unpack ebits) s = .next { s with status := BitVec.ofNat 32 (0x34 + 256 * g) }) ∧
    ((∀ g < s.wcnt.toNat, (s.slot g).toNat ≤ 2047) →
      (ebits % 8 ≠ 0 → exec (.unpack ebits) s = .next { s with status := 0x1F34 }) ∧
      (ebits % 8 = 0 → (total < ebits ∨ 256 < ebits ∨ 256 < total - ebits) →
        exec (.unpack ebits) s = .next { s with status := 0x35 }) ∧
      (ebits % 8 = 0 → ebits ≤ total → ebits ≤ 256 → total - ebits ≤ 256 → ∃ t, exec (.unpack ebits) s = .next t ∧
        t = { s with entw := t.entw, elen := BitVec.ofNat 32 (ebits / 8),
                     csbw := t.csbw, cslen := BitVec.ofNat 32 (total - ebits), status := 0x30 } ∧
        (∀ j < 32, (t.ent j).toNat =
          if j < ebits / 8 then val (((indexStream s.indices).drop (8 * j)).take 8) else 0) ∧
        (∀ i < 256, t.csb i = if i < total - ebits then (indexStream s.indices).getD (ebits + i) false else false)))

/-- R82: `ENCODE`, with its encoding, both ways it ends, everything else unchanged, and that it leaves what
`CKSUM (ELEN/4)` followed by `PACK` leaves. -/
def Obligations.EncodeWritesChecksumAndIndices : Prop :=
  decode 0x00000004 = .ok .encode ∧
  ∀ (s : State) (len n count : Nat), len = s.elen.toNat → n = 8 * len / 32 → count = (8 * len + n) / 11 →
    (len ∈ [16, 20, 24, 28, 32] → ∃ t, exec .encode s = .next t ∧
      t = { s with csbw := t.csbw, cslen := BitVec.ofNat 32 n, idx := t.idx, wcnt := BitVec.ofNat 32 count,
                   status := 0x40 } ∧
      (∀ i < 256, t.csb i = if i < n then (sha256 s.entropy).getMsbD i else false) ∧
      (∀ g < 24, (t.slot g).toNat =
        if g < count then val (((bits s.entropy ++ checksumBits sha256 s.entropy n).drop (11 * g)).take 11) else 0) ∧
      (∃ u v, exec (.cksum (len / 4)) s = .next u ∧ exec .pack u = .next v ∧ t = { v with status := 0x40 })) ∧
    (len ∉ [16, 20, 24, 28, 32] → exec .encode s = .next { s with status := 0x41 })

/-- R83: `DECODE`, with its encoding, the four ways it ends in the order of its tests, and everything else unchanged. -/
def Obligations.DecodeValidatesAndUnpacks : Prop :=
  decode 0x00000005 = .ok .decode ∧
  ∀ (s : State) (count ebits n : Nat) (e : List Byte) (c : List Bool),
    count = s.wcnt.toNat → ebits = count * 11 * 32 / 33 → n = ebits / 32 →
    e = bytes ((indexStream s.indices).take ebits) → c = (indexStream s.indices).drop ebits →
    (count ∉ [12, 15, 18, 21, 24] → exec .decode s = .next { s with status := 0x52 }) ∧
    (count ∈ [12, 15, 18, 21, 24] →
      (∀ g < count, 2047 < (s.slot g).toNat → (∀ k < g, (s.slot k).toNat ≤ 2047) →
        exec .decode s = .next { s with status := BitVec.ofNat 32 (0x54 + 256 * g) }) ∧
      ((∀ g < count, (s.slot g).toNat ≤ 2047) →
        (c ≠ checksumBits sha256 e n → exec .decode s = .next { s with status := 0x53 }) ∧
        (c = checksumBits sha256 e n → ∃ t, exec .decode s = .next t ∧
          t = { s with entw := t.entw, elen := BitVec.ofNat 32 (ebits / 8), csbw := t.csbw,
                       cslen := BitVec.ofNat 32 n, status := 0x50 } ∧
          (∀ j < 32, t.ent j = if j < ebits / 8 then e.getD j 0 else 0) ∧
          (∀ i < 256, t.csb i = if i < n then c.getD i false else false))))

/-- R76: `pack` and `unpack` are inverses, and so are the two commands. The states are those of a run (`InRange`). -/
def Obligations.PackAndUnpackAreInverses : Prop :=
  (∀ (e : List Byte) (c : List Bool), (8 * e.length + c.length) % 11 = 0 →
    unpack (pack e c) (8 * e.length) = (e, c)) ∧
  (∀ (w : List Nat) (ebits : Nat), (∀ v ∈ w, v ≤ 2047) → ebits % 8 = 0 → ebits ≤ 11 * w.length →
    pack (unpack w ebits).1 (unpack w ebits).2 = w) ∧
  (∀ s t, s.InRange → exec .pack s = .next t → statusResult t.status = 0 →
    ∃ u, exec (.unpack (8 * s.elen.toNat)) t = .next u ∧ statusResult u.status = 0 ∧
      u.elen = s.elen ∧ u.entropy = s.entropy ∧ u.cslen = s.cslen ∧ u.checksum = s.checksum ∧
      (∀ j, s.elen.toNat ≤ j → j < 32 → u.ent j = 0) ∧ (∀ i, s.cslen.toNat ≤ i → i < 256 → u.csb i = false)) ∧
  (∀ s t ebits, s.InRange → exec (.unpack ebits) s = .next t → statusResult t.status = 0 →
    ∃ u, exec .pack t = .next u ∧ statusResult u.status = 0 ∧ u.wcnt = s.wcnt ∧ u.indices = s.indices)

/-- R84: `DECODE` after `ENCODE` ends `OK` with the entropy again, and `ENCODE` after a `DECODE` that ended `OK` rewrites
the index sequence with the values it had. -/
def Obligations.EncodeDecodeRoundTrip : Prop :=
  (∀ s : State, s.elen.toNat ∈ [16, 20, 24, 28, 32] →
    ∃ t u, exec .encode s = .next t ∧ exec .decode t = .next u ∧ statusResult u.status = 0 ∧
      u.elen = s.elen ∧ u.entropy = s.entropy) ∧
  (∀ s t, exec .decode s = .next t → statusResult t.status = 0 →
    ∃ u, exec .encode t = .next u ∧ statusResult u.status = 0 ∧ u.wcnt = s.wcnt ∧ u.indices = s.indices)

/-- R85: after one bit of a valid sequence's stream is flipped, `DECODE` ends `INVALID_CHECKSUM` if it was a checksum bit,
and otherwise ends `OK` exactly when the changed entropy has the same checksum. -/
def Obligations.ChecksumSensitivity : Prop :=
  ∀ s t p (ebits : Nat), exec .decode s = .next t → statusResult t.status = 0 → ebits = 8 * t.elen.toNat →
    p < 11 * s.wcnt.toNat →
    (ebits ≤ p → exec .decode (s.flipStreamBit p) = .next { s.flipStreamBit p with status := 0x53 }) ∧
    (p < ebits → ∃ e' : List Byte, bits e' = (bits t.entropy).modify p (!·) ∧
      ((∃ u, exec .decode (s.flipStreamBit p) = .next u ∧ statusResult u.status = 0) ↔
        checksumBits sha256 e' (ebits / 32) = checksumBits sha256 t.entropy (ebits / 32)))

/-! ### All commands -/

/-- R104: a command that ends with any other result than `OK` writes `STATUS` and nothing else. -/
def Obligations.FailedCommandWritesStatusOnly : Prop :=
  ∀ i s t, exec i s = .next t → statusResult t.status ≠ 0 →
    t = { s with status := t.status } ∧ statusLastop t.status = i.op

/-- R33, last column: the frame of every command. -/
def Obligations.CommandWritesOnlyItsRegisters : Prop :=
  ∀ i s, ∃ t, exec i s = .next t ∧ SameBus s t ∧ ∀ r, writes i r = false → readReg t r = readReg s r

/-- R33, middle column, R27 and R31: what a command leaves in `STATUS`, and on `OK` in every register it writes, is the
same from any two states that agree on what it reads. -/
def Obligations.CommandReadsOnlyItsOperands : Prop :=
  ∀ i s s' t t', SameReads i s s' → exec i s = .next t → exec i s' = .next t' →
    t.status = t'.status ∧ (statusResult t.status = 0 → ∀ r, writes i r = true → readReg t r = readReg t' r)

/-- R105: `EIDX` is the least bad slot, or 31 when there is none, for `MALFORMED_INDEX`, and 0 for every other result. -/
def Obligations.ErrorIndexNamesTheLeastBadSlot : Prop :=
  ∀ i s t, exec i s = .next t →
    (statusResult t.status ≠ 4 → statusEidx t.status = 0) ∧
    (statusResult t.status = 4 →
      (∀ g < s.wcnt.toNat, 2047 < (s.slot g).toNat → (∀ k < g, (s.slot k).toNat ≤ 2047) →
        (statusEidx t.status).toNat = g) ∧
      ((∀ g < s.wcnt.toNat, (s.slot g).toNat ≤ 2047) → (statusEidx t.status).toNat = 31))

/-- R112: every command against every result: no command ends with a result its row denies, and every result its row
grants is the end of some well-formed command with its opcode from some state of a run. `UNPACK` ends `MALFORMED_INDEX`
for both causes, and `DECODE` never for the second. An illegal word ends only with `ILLEGAL_COMMAND`. -/
def Obligations.CommandsAgainstResults : Prop :=
  (∀ (i : Instr) s t, exec i s = .next t →
    ∃ r : ResultCode, statusResult t.status = r.code ∧ r ≠ .illegalCommand ∧ resultAllowed i.op.toNat r = true) ∧
  (∀ (op : BitVec 4) (r : ResultCode), op.toNat ≤ 6 → r ≠ .illegalCommand → resultAllowed op.toNat r = true →
    ∃ (i : Instr) (s t : State), i.op = op ∧ i.WellFormed ∧ s.InRange ∧ exec i s = .next t ∧
      statusResult t.status = r.code) ∧
  (∀ eidx : BitVec 5, eidx.toNat < 24 ∨ eidx.toNat = 31 →
    ∃ (ebits : Nat) (s t : State), (Instr.unpack ebits).WellFormed ∧ s.InRange ∧ exec (.unpack ebits) s = .next t ∧
      statusResult t.status = ResultCode.malformedIndex.code ∧ statusEidx t.status = eidx) ∧
  (∀ s t, exec .decode s = .next t → (statusEidx t.status).toNat ≠ 31) ∧
  (∀ w : Word, (∀ i, decode w ≠ .ok i) →
    ∀ s, ∃ t, runWord w s = .next t ∧ statusResult t.status = ResultCode.illegalCommand.code)

/-! ### The hash -/

/-- R92: padding. -/
def Obligations.PaddingLayout : Prop :=
  (∀ m : List Byte, m.length < 2 ^ 61 →
    ∃ zeros : Nat, ∃ lengthField : List Byte,
      shaPad m = m ++ [0x80] ++ List.replicate zeros 0x00 ++ lengthField ∧
      (m.length + 1 + zeros) % 64 = 56 ∧ (∀ fewer < zeros, (m.length + 1 + fewer) % 64 ≠ 56) ∧
      lengthField.length = 8 ∧ val (bits lengthField) = 8 * m.length ∧ (shaPad m).length % 64 = 0) ∧
  (∀ m : List Byte, m.length ≤ 32 → (shaPad m).length = 64)

/-- R97: the check values. -/
def Obligations.Sha256CheckValues : Prop :=
  sha256 [] = 0xe3b0c44298fc1c149afbf4c8996fb92427ae41e4649b934ca495991b7852b855 ∧
  sha256 [0x61, 0x62, 0x63] = 0xba7816bf8f01cfea414140de5dae2223b00361a396177a9cb410ff61f20015ad ∧
  sha256 [0x33, 0xE4, 0x6B, 0xB1, 0x3A, 0x74, 0x6E, 0xA4, 0x1C, 0xDD, 0xE4, 0x5C, 0x90, 0x84, 0x6A, 0x79] =
    0xb6cb2f36085c1ff4a1949ecd96727adeaa083bd16c8317121d34b5aed1c1420a ∧
  sha256 (List.replicate 16 0x00) = 0x374708fff7719dd5979ec875d56cd2286f6d3cf7ec317a3b25632aab28ec37bb ∧
  sha256 (List.replicate 16 0xFF) = 0x5ac6a5945f16500911219129984ba8b387a06f24fe383ce4e81a73294065461b ∧
  sha256 (List.replicate 20 0x00) = 0xde47c9b27eb8d300dbb5f2c353e632c393262cf06340c4fa7f1b40c4cbd36f90 ∧
  sha256 (List.replicate 24 0x00) = 0x9d908ecfb6b256def8b49a7c504e6c889c4b0e41fe6ce3e01863dd7b61a20aa0 ∧
  sha256 (List.replicate 28 0x00) = 0x3addfb141cd7c9c4c6543a82191a3707ac29c7a041217782e61d4d91c691aee8 ∧
  sha256 (List.replicate 32 0x00) = 0x66687aadf862bd776c8fc18b8e9f8e20089714856ee233b3902a591d0d5f2925 ∧
  sha256 (List.replicate 32 0xFF) = 0xaf9613760f72635fbdb44a5a0a63c39f12af30f950a6ee5c971be188e89c4051 ∧
  sha256 ((List.range 32).map (BitVec.ofNat 8)) = 0x630dcd2966c4336691125448bbb25b4ff412a49c732db2c8abc1b8581bd710dd
end

