-- ==== Sys2Proof/Laws/Bits.lean ====
section
/-! SUPPORT. Bit sequences: `val` and `bitsOf` are inverse, streams have the lengths expected, and cutting a stream into
groups loses nothing. -/

namespace Sys2Proof.Machine

@[simp] theorem val_nil : val [] = 0 := rfl

theorem foldl_val (s : List Bool) (a : Nat) :
    s.foldl (fun acc b => 2 * acc + b.toNat) a = a * 2 ^ s.length + val s := by
  induction s generalizing a with
  | nil => simp
  | cons b s ih =>
    have h := ih (2 * a + b.toNat)
    have h0 := ih (2 * 0 + b.toNat)
    simp only [List.foldl_cons, List.length_cons, val] at *
    rw [h, h0]; ring

theorem val_cons (b : Bool) (s : List Bool) : val (b :: s) = b.toNat * 2 ^ s.length + val s := by
  simpa [val] using foldl_val s (2 * 0 + b.toNat)

/-- A concatenation spells the first number shifted past the second. -/
theorem val_append (s t : List Bool) : val (s ++ t) = val s * 2 ^ t.length + val t := by
  rw [val, List.foldl_append, foldl_val]; rfl

theorem val_lt (s : List Bool) : val s < 2 ^ s.length := by
  induction s with
  | nil => simp
  | cons b s ih =>
    rw [val_cons, List.length_cons, pow_succ]
    cases b <;> simp <;> omega

@[simp] theorem length_bitsOf (n v : Nat) : (bitsOf n v).length = n := by simp [bitsOf]

theorem getElem_bitsOf (n v t : Nat) (h : t < (bitsOf n v).length) :
    (bitsOf n v)[t] = v.testBit (n - 1 - t) := by simp [bitsOf]

@[simp] theorem bitsOf_zero_left (v : Nat) : bitsOf 0 v = [] := rfl

/-- The first of `n + 1` bits is bit `n`. -/
theorem bitsOf_succ (n v : Nat) : bitsOf (n + 1) v = v.testBit n :: bitsOf n v := by
  refine List.ext_getElem (by simp) fun i h1 h2 => ?_
  cases i with
  | zero => simp [getElem_bitsOf]
  | succ i => simp only [getElem_bitsOf, List.getElem_cons_succ]; congr 1; omega

theorem val_bitsOf (n v : Nat) : val (bitsOf n v) = v % 2 ^ n := by
  induction n with
  | zero => simp [Nat.mod_one]
  | succ n ih =>
    rw [bitsOf_succ, val_cons, ih, length_bitsOf, Nat.mod_pow_succ, Nat.toNat_testBit]; ring

theorem testBit_val (s : List Bool) (i : Nat) : (val s).testBit i = (s.reverse[i]?.getD false) := by
  induction s generalizing i with
  | nil => simp
  | cons b s ih =>
    have hlt := val_lt s
    rw [val_cons]
    by_cases hi : i < s.length
    · rw [Nat.mul_comm, Nat.testBit_two_pow_mul_add _ hlt, if_pos hi, ih]
      rw [List.reverse_cons, List.getElem?_append_left (by simpa using hi)]
    · rw [Nat.mul_comm, Nat.testBit_two_pow_mul_add _ hlt, if_neg hi]
      rw [List.reverse_cons, List.getElem?_append_right (by simp; omega)]
      rcases Nat.lt_or_ge s.length i with h | h
      · have : i - s.length ≠ 0 := by omega
        obtain ⟨k, hk⟩ := Nat.exists_eq_succ_of_ne_zero this
        cases b <;> simp [hk, Nat.testBit_succ]
      · have : i = s.length := by omega
        subst this; cases b <;> simp

/-- The other inverse: spelling the value of a sequence in its own length gives the sequence. -/
theorem bitsOf_val (s : List Bool) : bitsOf s.length (val s) = s := by
  refine List.ext_getElem (by simp) fun i h1 h2 => ?_
  rw [getElem_bitsOf, testBit_val, List.getElem?_reverse (by omega)]
  have : s.length - 1 - (s.length - 1 - i) = i := by omega
  simp [this, h2]

theorem bitsOf_val_of_length {s : List Bool} {n : Nat} (h : s.length = n) : bitsOf n (val s) = s := by
  subst h; exact bitsOf_val s

@[simp] theorem bits_nil : bits [] = [] := rfl

theorem bits_cons (b : Byte) (e : List Byte) : bits (b :: e) = bitsOf 8 b.toNat ++ bits e := rfl

theorem bits_append (e f : List Byte) : bits (e ++ f) = bits e ++ bits f := by simp [bits]

/-- A flat map of pieces of one length has the expected length. -/
theorem length_flatMap_const {α β : Type} (k : Nat) (f : α → List β) (hf : ∀ a, (f a).length = k) (l : List α) :
    (l.flatMap f).length = k * l.length := by
  induction l with
  | nil => simp
  | cons a l ih => simp [hf, ih]; ring

@[simp] theorem length_bits (e : List Byte) : (bits e).length = 8 * e.length :=
  length_flatMap_const 8 _ (fun _ => length_bitsOf _ _) e

@[simp] theorem length_groups {α : Type} (k m : Nat) (s : List α) : (groups k m s).length = m := by
  induction m generalizing s with
  | zero => rfl
  | succ m ih => simp [groups, ih]

theorem getElem_groups {α : Type} (k m : Nat) (s : List α) (g : Nat) (h : g < (groups k m s).length) :
    (groups k m s)[g] = (s.drop (k * g)).take k := by
  induction m generalizing s g with
  | zero => simp at h
  | succ m ih =>
    cases g with
    | zero => simp [groups]
    | succ g =>
      simp only [groups, List.getElem_cons_succ]
      rw [ih, List.drop_drop]; congr 2; ring

/-- Every group of a sequence that is long enough is full. -/
theorem length_of_mem_groups {α : Type} {k m : Nat} {s g : List α} (hs : k * m ≤ s.length)
    (hg : g ∈ groups k m s) : g.length = k := by
  induction m generalizing s with
  | zero => simp [groups] at hg
  | succ m ih =>
    rw [Nat.mul_succ] at hs
    rcases List.mem_cons.1 hg with rfl | hg
    · simp; omega
    · exact ih (by simp; omega) hg

/-- Cutting a whole sequence into groups and joining them again gives the sequence. -/
theorem flatten_groups {α : Type} (k m : Nat) (s : List α) (hs : s.length = k * m) : (groups k m s).flatten = s := by
  induction m generalizing s with
  | zero => simpa [groups, eq_comm] using hs
  | succ m ih =>
    rw [groups, List.flatten_cons, ih _ (by rw [List.length_drop, hs, Nat.mul_succ]; omega)]
    exact List.take_append_drop k s

/-- Joining pieces of one length and cutting them again gives the pieces. -/
theorem groups_flatMap {α β : Type} (k : Nat) (f : α → List β) (hf : ∀ a, (f a).length = k) (l : List α) :
    groups k l.length (l.flatMap f) = l.map f := by
  induction l with
  | nil => rfl
  | cons a l ih => simp [groups, hf, ih]

@[simp] theorem length_bytes (s : List Bool) : (bytes s).length = s.length / 8 := by simp [bytes]

/-- `bytes` undoes `bits` (R72). -/
theorem bytes_bits (e : List Byte) : bytes (bits e) = e := by
  have hlen : (bits e).length / 8 = e.length := by simp
  rw [bytes, hlen, bits, groups_flatMap 8 _ (fun _ => length_bitsOf _ _), List.map_map]
  conv_rhs => rw [← List.map_id e]
  refine List.map_congr_left fun b _ => ?_
  simp [val_bitsOf, Nat.mod_eq_of_lt b.isLt]

/-- `bits` undoes `bytes` on a whole number of bytes (R72). -/
theorem bits_bytes (s : List Bool) (hs : s.length % 8 = 0) : bits (bytes s) = s := by
  have hl : s.length = 8 * (s.length / 8) := by omega
  conv_rhs => rw [← flatten_groups 8 (s.length / 8) s hl]
  rw [bits, bytes, List.flatMap_map, List.flatMap_def]
  congr 1
  conv_rhs => rw [← List.map_id (groups 8 (s.length / 8) s)]
  refine List.map_congr_left fun g hg => ?_
  have hg8 := length_of_mem_groups (by omega) hg
  have hv := val_lt g
  rw [hg8] at hv
  simp only [BitVec.toNat_ofNat, id_eq]
  rw [Nat.mod_eq_of_lt hv, bitsOf_val_of_length hg8]

theorem getElem_bytes (s : List Bool) (j : Nat) (h : j < (bytes s).length) :
    (bytes s)[j] = BitVec.ofNat 8 (val ((s.drop (8 * j)).take 8)) := by
  simp [bytes, getElem_groups]

end Sys2Proof.Machine
end

