-- ==== Sys2Proof/Laws/Codec.lean ====
section
/-! SUPPORT. The three functions of the codec, one lemma for each thing later proofs need: lengths, ranges, and that
`pack` and `unpack` undo each other (41_bitpack.md R76). -/

namespace Sys2Proof.Machine

@[simp] theorem length_checksumBits (H : HashFn) (e : List Byte) (n : Nat) :
    (checksumBits H e n).length = min n 256 := by simp [checksumBits]

theorem getElem_checksumBits (H : HashFn) (e : List Byte) (n i : Nat) (h : i < (checksumBits H e n).length) :
    (checksumBits H e n)[i] = (H e).getMsbD i := by
  have hi : i < 256 := by simp at h; omega
  simp only [checksumBits, List.getElem_take, getElem_bitsOf, BitVec.getMsbD, hi, decide_true, Bool.true_and,
    BitVec.getLsbD]

@[simp] theorem length_combined (e : List Byte) (c : List Bool) :
    (combined e c).length = 8 * e.length + c.length := by simp [combined]

@[simp] theorem length_pack (e : List Byte) (c : List Bool) :
    (pack e c).length = (8 * e.length + c.length) / 11 := by simp [pack]

theorem getElem_pack (e : List Byte) (c : List Bool) (g : Nat) (h : g < (pack e c).length) :
    (pack e c)[g] = val (((combined e c).drop (11 * g)).take 11) := by simp [pack, getElem_groups]

/-- Every index that `pack` gives is in [0, 2047] (R73). -/
theorem pack_lt {e : List Byte} {c : List Bool} {v : Nat} (hv : v ∈ pack e c) : v < 2048 := by
  obtain ⟨g, hg, rfl⟩ := List.mem_map.1 hv
  have := val_lt g
  rwa [length_of_mem_groups (k := 11) (by omega) hg] at this

@[simp] theorem length_indexStream (w : List Nat) : (indexStream w).length = 11 * w.length :=
  length_flatMap_const 11 _ (fun _ => length_bitsOf _ _) w

/-- The stream of the packed indices is the combined stream they were cut from. -/
theorem indexStream_pack (e : List Byte) (c : List Bool) (hT : (8 * e.length + c.length) % 11 = 0) :
    indexStream (pack e c) = combined e c := by
  have hl : (combined e c).length = 11 * ((combined e c).length / 11) := by simp; omega
  conv_rhs => rw [← flatten_groups 11 _ (combined e c) hl]
  rw [indexStream, pack, List.flatMap_map, List.flatMap_def]
  congr 1
  conv_rhs => rw [← List.map_id (groups _ _ _)]
  refine List.map_congr_left fun g hg => ?_
  exact bitsOf_val_of_length (length_of_mem_groups (by omega) hg)

/-- `unpack` undoes `pack` (R76 (a)). -/
theorem unpack_pack (e : List Byte) (c : List Bool) (hT : (8 * e.length + c.length) % 11 = 0) :
    unpack (pack e c) (8 * e.length) = (e, c) := by
  rw [unpack, indexStream_pack e c hT, combined]
  rw [List.take_append_of_le_length (by simp), List.drop_append_of_le_length (by simp)]
  rw [List.take_of_length_le (by simp), List.drop_of_length_le (by simp), bytes_bits, List.nil_append]

@[simp] theorem length_unpack_fst (w : List Nat) (ebits : Nat) :
    (unpack w ebits).1.length = min ebits (11 * w.length) / 8 := by simp [unpack]

@[simp] theorem length_unpack_snd (w : List Nat) (ebits : Nat) :
    (unpack w ebits).2.length = 11 * w.length - ebits := by simp [unpack]

/-- The two parts of `unpack` are the stream again. -/
theorem combined_unpack (w : List Nat) (ebits : Nat) (h8 : ebits % 8 = 0) (hT : ebits ≤ 11 * w.length) :
    combined (unpack w ebits).1 (unpack w ebits).2 = indexStream w := by
  rw [combined, unpack, bits_bytes _ (by simp; omega), List.take_append_drop]

/-- `pack` undoes `unpack` (R76 (b)). -/
theorem pack_unpack (w : List Nat) (ebits : Nat) (hw : ∀ v ∈ w, v < 2048) (h8 : ebits % 8 = 0)
    (hT : ebits ≤ 11 * w.length) : pack (unpack w ebits).1 (unpack w ebits).2 = w := by
  rw [pack, combined_unpack w ebits h8 hT, length_indexStream, Nat.mul_div_cancel_left _ (by omega), indexStream,
    groups_flatMap 11 _ (fun _ => length_bitsOf _ _), List.map_map]
  conv_rhs => rw [← List.map_id w]
  refine List.map_congr_left fun v hv => ?_
  have := hw v hv
  simp only [Function.comp_apply, val_bitsOf, id_eq]
  omega

/-- Bit `q` of the stream is bit `10 - q mod 11` of index `q div 11` (R79 (b)). -/
theorem getElem_indexStream (w : List Nat) (q : Nat) (h : q < (indexStream w).length) :
    (indexStream w)[q] = (w.getD (q / 11) 0).testBit (10 - q % 11) := by
  have hl := length_indexStream w
  have hgf : groups 11 w.length (indexStream w) = w.map (bitsOf 11) :=
    groups_flatMap 11 (bitsOf 11) (fun _ => length_bitsOf _ _) w
  have hg := getElem_groups 11 w.length (indexStream w) (q / 11) (by simp; omega)
  have hbits : ((indexStream w).drop (11 * (q / 11))).take 11 = bitsOf 11 (w.getD (q / 11) 0) := by
    rw [← hg]
    simp only [hgf]
    rw [List.getElem_map, List.getD_eq_getElem _ _ (by omega)]
  have hq : (((indexStream w).drop (11 * (q / 11))).take 11)[q % 11]? =
      some ((w.getD (q / 11) 0).testBit (10 - q % 11)) := by
    rw [hbits, List.getElem?_eq_getElem (by simp; omega), getElem_bitsOf]
  rw [List.getElem?_take, if_pos (by omega), List.getElem?_drop, show 11 * (q / 11) + q % 11 = q by omega,
    List.getElem?_eq_getElem h] at hq
  exact Option.some.inj hq

end Sys2Proof.Machine
end

