-- ==== Sys2Proof/Laws/State.lean ====
section
/-! SUPPORT. What each update of the state leaves in each field: one lemma per field per update, all by `rfl`. -/

namespace Sys2Proof.Machine

variable (e : List Byte) (c : List Bool) (w : List Nat) (s : State) (resp : Response)

@[simp] theorem putEntropy_status : (putEntropy e s).status = s.status := rfl
@[simp] theorem putEntropy_elen : (putEntropy e s).elen = BitVec.ofNat 32 e.length := rfl
@[simp] theorem putEntropy_cslen : (putEntropy e s).cslen = s.cslen := rfl
@[simp] theorem putEntropy_wcnt : (putEntropy e s).wcnt = s.wcnt := rfl
@[simp] theorem putEntropy_entw : (putEntropy e s).entw = entWords e := rfl
@[simp] theorem putEntropy_csbw : (putEntropy e s).csbw = s.csbw := rfl
@[simp] theorem putEntropy_idx : (putEntropy e s).idx = s.idx := rfl
@[simp] theorem putEntropy_pending : (putEntropy e s).pending = s.pending := rfl
@[simp] theorem putEntropy_reply : (putEntropy e s).reply = s.reply := rfl

@[simp] theorem putChecksum_status : (putChecksum c s).status = s.status := rfl
@[simp] theorem putChecksum_elen : (putChecksum c s).elen = s.elen := rfl
@[simp] theorem putChecksum_cslen : (putChecksum c s).cslen = BitVec.ofNat 32 c.length := rfl
@[simp] theorem putChecksum_wcnt : (putChecksum c s).wcnt = s.wcnt := rfl
@[simp] theorem putChecksum_entw : (putChecksum c s).entw = s.entw := rfl
@[simp] theorem putChecksum_csbw : (putChecksum c s).csbw = csbWords c := rfl
@[simp] theorem putChecksum_idx : (putChecksum c s).idx = s.idx := rfl
@[simp] theorem putChecksum_pending : (putChecksum c s).pending = s.pending := rfl
@[simp] theorem putChecksum_reply : (putChecksum c s).reply = s.reply := rfl

@[simp] theorem putIndices_status : (putIndices w s).status = s.status := rfl
@[simp] theorem putIndices_elen : (putIndices w s).elen = s.elen := rfl
@[simp] theorem putIndices_cslen : (putIndices w s).cslen = s.cslen := rfl
@[simp] theorem putIndices_wcnt : (putIndices w s).wcnt = BitVec.ofNat 32 w.length := rfl
@[simp] theorem putIndices_entw : (putIndices w s).entw = s.entw := rfl
@[simp] theorem putIndices_csbw : (putIndices w s).csbw = s.csbw := rfl
@[simp] theorem putIndices_idx : (putIndices w s).idx = idxWords w := rfl
@[simp] theorem putIndices_pending : (putIndices w s).pending = s.pending := rfl
@[simp] theorem putIndices_reply : (putIndices w s).reply = s.reply := rfl

@[simp] theorem answerWrite_status : (s.answerWrite resp).status = s.status := rfl
@[simp] theorem answerWrite_elen : (s.answerWrite resp).elen = s.elen := rfl
@[simp] theorem answerWrite_cslen : (s.answerWrite resp).cslen = s.cslen := rfl
@[simp] theorem answerWrite_wcnt : (s.answerWrite resp).wcnt = s.wcnt := rfl
@[simp] theorem answerWrite_entw : (s.answerWrite resp).entw = s.entw := rfl
@[simp] theorem answerWrite_csbw : (s.answerWrite resp).csbw = s.csbw := rfl
@[simp] theorem answerWrite_idx : (s.answerWrite resp).idx = s.idx := rfl
@[simp] theorem answerWrite_pending : (s.answerWrite resp).pending = s.pending := rfl
@[simp] theorem answerWrite_reply : (s.answerWrite resp).reply = some (.write resp) := rfl

@[simp] theorem reset_status : State.reset.status = 0 := rfl
@[simp] theorem reset_elen : State.reset.elen = 0 := rfl
@[simp] theorem reset_cslen : State.reset.cslen = 0 := rfl
@[simp] theorem reset_wcnt : State.reset.wcnt = 0 := rfl
@[simp] theorem reset_pending : State.reset.pending = [] := rfl
@[simp] theorem reset_reply : State.reset.reply = none := rfl

/-- A register read depends on the register fields alone, not on the bus. -/
theorem readReg_congr {s t : State} (h1 : t.status = s.status) (h2 : t.elen = s.elen) (h3 : t.cslen = s.cslen)
    (h4 : t.wcnt = s.wcnt) (h5 : t.entw = s.entw) (h6 : t.csbw = s.csbw) (h7 : t.idx = s.idx) (r : Reg) :
    readReg t r = readReg s r := by
  cases r <;> simp only [readReg, *]

@[simp] theorem readReg_answerWrite (r : Reg) : readReg (s.answerWrite resp) r = readReg s r :=
  readReg_congr rfl rfl rfl rfl rfl rfl rfl r

end Sys2Proof.Machine
end

