-- ==== Sys2Proof/Laws/Buffers.lean ====
section
/-! SUPPORT. The three buffers: what a command writes into one is what the views read back, and zeros follow it
(10_state.md R24 to R27). -/

namespace Sys2Proof.Machine

@[simp] theorem length_entropy (s : State) : s.entropy.length = s.elen.toNat := by simp [State.entropy]
@[simp] theorem length_checksum (s : State) : s.checksum.length = s.cslen.toNat := by simp [State.checksum]
@[simp] theorem length_indices (s : State) : s.indices.length = s.wcnt.toNat := by simp [State.indices]

theorem getElem_entropy (s : State) (j : Nat) (h : j < s.entropy.length) : s.entropy[j] = s.ent j := by
  simp [State.entropy]
theorem getElem_checksum (s : State) (i : Nat) (h : i < s.checksum.length) : s.checksum[i] = s.csb i := by
  simp [State.checksum]
theorem getElem_indices (s : State) (g : Nat) (h : g < s.indices.length) : s.indices[g] = (s.slot g).toNat := by
  simp [State.indices]

/-- The four byte fields of a word made of four bytes. -/
theorem extract_wordOfBytes (a b c d : Byte) (r : Nat) (hr : r < 4) :
    (wordOfBytes a b c d).extractLsb' (24 - 8 * r) 8 = [a, b, c, d].getD r 0 := by
  have ha := a.isLt
  have hb := b.isLt
  have hc := c.isLt
  have hd := d.isLt
  have : r = 0 ∨ r = 1 ∨ r = 2 ∨ r = 3 := by omega
  rcases this with rfl | rfl | rfl | rfl <;> refine BitVec.eq_of_toNat_eq ?_ <;>
    simp only [wordOfBytes, BitVec.extractLsb'_toNat, BitVec.toNat_ofNat, Nat.shiftRight_eq_div_pow,
      List.getD_cons_zero, List.getD_cons_succ] <;> omega

/-- Byte `j` of the written entropy buffer is byte `j` of the entropy, and 0 beyond it. -/
theorem ent_entWords (e : List Byte) (j : Nat) (hj : j < 32) :
    ((entWords e)[j / 4]?.getD 0).extractLsb' (24 - 8 * (j % 4)) 8 = e.getD j 0 := by
  have h4 : j / 4 < 8 := by omega
  have hr : j % 4 < 4 := Nat.mod_lt _ (by omega)
  rw [Vector.getElem?_eq_getElem h4, Option.getD_some, entWords, Vector.getElem_ofFn]
  rw [extract_wordOfBytes _ _ _ _ _ hr]
  have : j = 4 * (j / 4) + j % 4 := by omega
  generalize j / 4 = q at *
  generalize j % 4 = r at *
  subst this
  have : r = 0 ∨ r = 1 ∨ r = 2 ∨ r = 3 := by omega
  rcases this with rfl | rfl | rfl | rfl <;> rfl

/-- Bit `i` of the written checksum-bit buffer is bit `i` of the checksum, and 0 beyond it. -/
theorem csb_csbWords (c : List Bool) (i : Nat) (hi : i < 256) :
    ((csbWords c)[i / 32]?.getD 0).getLsbD (31 - i % 32) = c.getD i false := by
  have h8 : i / 32 < 8 := by omega
  rw [Vector.getElem?_eq_getElem h8, Option.getD_some, csbWords, Vector.getElem_ofFn]
  have hm : i % 32 < 32 := Nat.mod_lt _ (by omega)
  rw [BitVec.getLsbD_ofNat, testBit_val, List.getElem?_reverse (by simp; omega)]
  have h1 : 32 - 1 - (31 - i % 32) = i % 32 := by omega
  have h2 : 32 * (i / 32) + i % 32 = i := by omega
  simp [h1, h2, hm]
  omega

/-- Slot `g` of the written index buffer is index `g`, and 0 beyond the sequence. -/
theorem slot_idxWords (w : List Nat) (g : Nat) (hg : g < 24) :
    (idxWords w)[g]?.getD 0 = BitVec.ofNat 32 (w.getD g 0) := by
  rw [Vector.getElem?_eq_getElem hg, Option.getD_some, idxWords, Vector.getElem_ofFn]

theorem ent_putEntropy (e : List Byte) (s : State) (j : Nat) (hj : j < 32) :
    (putEntropy e s).ent j = e.getD j 0 := ent_entWords e j hj

theorem csb_putChecksum (c : List Bool) (s : State) (i : Nat) (hi : i < 256) :
    (putChecksum c s).csb i = c.getD i false := csb_csbWords c i hi

theorem slot_putIndices (w : List Nat) (s : State) (g : Nat) (hg : g < 24) :
    (putIndices w s).slot g = BitVec.ofNat 32 (w.getD g 0) := slot_idxWords w g hg

theorem toNat_ofNat_of_lt {n m : Nat} (h : n ≤ m) (hm : m < 2 ^ 32) : (BitVec.ofNat 32 n).toNat = n := by
  simp; omega

/-- An entropy that fits its buffer is read back whole. -/
theorem entropy_putEntropy (e : List Byte) (s : State) (he : e.length ≤ 32) : (putEntropy e s).entropy = e := by
  have hl : (putEntropy e s).entropy.length = e.length := by
    simp only [length_entropy, putEntropy_elen]; exact toNat_ofNat_of_lt he (by omega)
  refine List.ext_getElem hl fun j h1 h2 => ?_
  rw [getElem_entropy, ent_putEntropy e s j (by omega), List.getD_eq_getElem _ _ h2]

/-- A checksum that fits its buffer is read back whole. -/
theorem checksum_putChecksum (c : List Bool) (s : State) (hc : c.length ≤ 256) : (putChecksum c s).checksum = c := by
  have hl : (putChecksum c s).checksum.length = c.length := by
    simp only [length_checksum, putChecksum_cslen]; exact toNat_ofNat_of_lt hc (by omega)
  refine List.ext_getElem hl fun i h1 h2 => ?_
  rw [getElem_checksum, csb_putChecksum c s i (by omega), List.getD_eq_getElem _ _ h2]

/-- An index sequence that fits its buffer is read back whole. -/
theorem indices_putIndices (w : List Nat) (s : State) (hw : w.length ≤ 24) (hv : ∀ v ∈ w, v < 2048) :
    (putIndices w s).indices = w := by
  have hl : (putIndices w s).indices.length = w.length := by
    simp only [length_indices, putIndices_wcnt]; exact toNat_ofNat_of_lt hw (by omega)
  refine List.ext_getElem hl fun g h1 h2 => ?_
  rw [getElem_indices, slot_putIndices w s g (by omega), List.getD_eq_getElem _ _ h2]
  have := hv _ (List.getElem_mem h2)
  simp; omega

/-- A slot beyond the buffer reads as 0, in a state no run reaches. -/
theorem slot_of_ge (s : State) (g : Nat) (hg : 24 ≤ g) : s.slot g = 0 := by
  simp [State.slot, Vector.getElem?_eq_none hg]

/-- What `firstBadIndex` finds: the least slot below `WCNT` with a value above 2047, always a slot of the buffer. -/
theorem firstBadIndex_eq_some {s : State} {g : Nat} :
    s.firstBadIndex = some g ↔
      g < s.wcnt.toNat ∧ 2047 < (s.slot g).toNat ∧ ∀ k < g, (s.slot k).toNat ≤ 2047 := by
  rw [State.firstBadIndex, List.findIdx?_eq_some_iff_getElem]
  simp only [length_indices, getElem_indices, decide_eq_true_eq]
  constructor
  · rintro ⟨h, h1, h2⟩
    exact ⟨h, h1, fun k hk => by simpa using h2 k hk⟩
  · rintro ⟨h, h1, h2⟩
    exact ⟨h, h1, fun k hk => by simpa using h2 k hk⟩

theorem firstBadIndex_lt {s : State} {g : Nat} (h : s.firstBadIndex = some g) : g < 24 := by
  by_contra hg
  have := (firstBadIndex_eq_some.1 h).2.1
  rw [slot_of_ge s g (by omega)] at this
  simp at this

theorem firstBadIndex_eq_none {s : State} :
    s.firstBadIndex = none ↔ ∀ g < s.wcnt.toNat, (s.slot g).toNat ≤ 2047 := by
  rw [State.firstBadIndex, List.findIdx?_eq_none_iff]
  simp [State.indices]

/-- With no bad index every index of the sequence is in [0, 2047]. -/
theorem indices_lt {s : State} (h : s.firstBadIndex = none) : ∀ v ∈ s.indices, v < 2048 := by
  intro v hv
  rw [State.firstBadIndex, List.findIdx?_eq_none_iff] at h
  have := h v hv
  simp at this; omega

end Sys2Proof.Machine
end

