-- ==== Sys2Proof/Laws/Decode.lean ====
section
/-! SUPPORT. The fields of a command word as numbers, and what the encoder puts into them. -/

namespace Sys2Proof

theorem toNat_fieldOp (w : Word) : (fieldOp w).toNat = w.toNat % 16 := by
  simp [fieldOp, BitVec.extractLsb'_toNat]

theorem toNat_fieldImm (w : Word) : (fieldImm w).toNat = w.toNat / 16 % 512 := by
  simp [fieldImm, BitVec.extractLsb'_toNat, Nat.shiftRight_eq_div_pow]

theorem toNat_fieldZero (w : Word) : (fieldZero w).toNat = w.toNat / 8192 := by
  have := w.isLt
  simp only [fieldZero, BitVec.extractLsb'_toNat, Nat.shiftRight_eq_div_pow]
  omega

/-- A word is its three fields. -/
theorem word_eq_fields (w : Word) :
    w.toNat = (fieldOp w).toNat + 16 * (fieldImm w).toNat + 8192 * (fieldZero w).toNat := by
  rw [toNat_fieldOp, toNat_fieldImm, toNat_fieldZero]; omega

theorem imm_lt_of_wellFormed {i : Instr} (h : i.WellFormed) : i.imm < 512 := by
  cases i <;> simp [Instr.WellFormed, Instr.wellFormed, immFits, Instr.imm] at * <;> exact h

theorem toNat_encode {i : Instr} (h : i.WellFormed) : (encode i).toNat = i.op.toNat + 16 * i.imm := by
  have h1 := imm_lt_of_wellFormed h
  have h2 := i.op.isLt
  simp only [encode, BitVec.toNat_ofNat]
  omega

theorem fieldOp_encode {i : Instr} (h : i.WellFormed) : fieldOp (encode i) = i.op := by
  refine BitVec.eq_of_toNat_eq ?_
  have h2 := i.op.isLt
  rw [toNat_fieldOp, toNat_encode h]; omega

theorem toNat_fieldImm_encode {i : Instr} (h : i.WellFormed) : (fieldImm (encode i)).toNat = i.imm := by
  have h1 := imm_lt_of_wellFormed h
  have h2 := i.op.isLt
  rw [toNat_fieldImm, toNat_encode h]; omega

theorem fieldZero_encode {i : Instr} (h : i.WellFormed) : fieldZero (encode i) = 0 := by
  refine BitVec.eq_of_toNat_eq ?_
  have h1 := imm_lt_of_wellFormed h
  have h2 := i.op.isLt
  rw [toNat_fieldZero, toNat_encode h]
  simp; omega

/-- The opcode of every command is at most 6 (R58). -/
theorem toNat_op_le (i : Instr) : i.op.toNat ≤ 6 := by cases i <;> simp [Instr.op]

/-- What the decoder read, in the fields of the word: the other half of "decode and encode agree". -/
theorem fields_of_decode {w : Word} {i : Instr} (h : decode w = .ok i) :
    fieldZero w = 0 ∧ fieldOp w = i.op ∧ (fieldImm w).toNat = i.imm := by
  unfold decode decodePlain at h
  split at h
  · cases h
  · rename_i hz
    refine ⟨by simpa using hz, ?_⟩
    repeat' split at h
    all_goals cases h
    all_goals simp_all [Instr.op, Instr.imm]

/-- `decodePlain` on the word as a number. -/
theorem decodePlain_num (w : Word) (i : Instr) :
    decodePlain w i = if w.toNat / 16 % 512 = 0 then .ok i else .error .immediate := by
  unfold decodePlain
  simp only [← BitVec.toNat_inj, toNat_fieldImm]; rfl

/-- The decoder on the word as a number. -/
theorem decode_num (w : Word) : decode w =
    if w.toNat / 8192 ≠ 0 then .error .zeroField
    else if w.toNat % 16 = 0 then decodePlain w .nop
    else if w.toNat % 16 = 1 then .ok (.cksum (w.toNat / 16 % 512))
    else if w.toNat % 16 = 2 then decodePlain w .pack
    else if w.toNat % 16 = 3 then .ok (.unpack (w.toNat / 16 % 512))
    else if w.toNat % 16 = 4 then decodePlain w .encode
    else if w.toNat % 16 = 5 then decodePlain w .decode
    else if w.toNat % 16 = 6 then decodePlain w .clear
    else .error .reservedOpcode := by
  unfold decode
  simp only [← BitVec.toNat_inj, toNat_fieldOp, toNat_fieldImm, toNat_fieldZero, ne_eq]
  rfl

end Sys2Proof
end

