-- ==== Sys2Proof/Laws/Status.lean ====
section
/-! SUPPORT. The fields of `STATUS` (10_state.md R22): what `mkStatus` puts into each, and the numbers it gives. -/

namespace Sys2Proof.Machine

/-- `STATUS` as a number: `RESULT + 16*LASTOP + 256*EIDX`. -/
theorem toNat_mkStatus (r : ResultCode) (op : BitVec 4) (eidx : BitVec 5) :
    (mkStatus r op eidx).toNat = r.code.toNat + 16 * op.toNat + 256 * eidx.toNat := by
  have h1 := r.code.isLt
  have h2 := op.isLt
  have h3 := eidx.isLt
  simp only [mkStatus, BitVec.toNat_append, BitVec.toNat_ofNat, Nat.zero_mod, Nat.zero_shiftLeft, Nat.zero_or]
  rw [← Nat.shiftLeft_add_eq_or_of_lt (by omega), ← Nat.shiftLeft_add_eq_or_of_lt (by omega)]
  simp only [Nat.shiftLeft_eq]
  omega

@[simp] theorem statusResult_mkStatus (r : ResultCode) (op : BitVec 4) (eidx : BitVec 5) :
    statusResult (mkStatus r op eidx) = r.code := by
  refine BitVec.eq_of_toNat_eq ?_
  have h1 := r.code.isLt
  simp only [statusResult, BitVec.extractLsb'_toNat, toNat_mkStatus, Nat.shiftRight_eq_div_pow]
  omega

@[simp] theorem statusLastop_mkStatus (r : ResultCode) (op : BitVec 4) (eidx : BitVec 5) :
    statusLastop (mkStatus r op eidx) = op := by
  refine BitVec.eq_of_toNat_eq ?_
  have h1 := r.code.isLt
  have h2 := op.isLt
  simp only [statusLastop, BitVec.extractLsb'_toNat, toNat_mkStatus, Nat.shiftRight_eq_div_pow]
  omega

@[simp] theorem statusEidx_mkStatus (r : ResultCode) (op : BitVec 4) (eidx : BitVec 5) :
    statusEidx (mkStatus r op eidx) = eidx := by
  refine BitVec.eq_of_toNat_eq ?_
  have h1 := r.code.isLt
  have h2 := op.isLt
  have h3 := eidx.isLt
  simp only [statusEidx, BitVec.extractLsb'_toNat, toNat_mkStatus, Nat.shiftRight_eq_div_pow]
  omega

@[simp] theorem statusReserved_mkStatus (r : ResultCode) (op : BitVec 4) (eidx : BitVec 5) :
    statusReserved (mkStatus r op eidx) = 0 := by
  refine BitVec.eq_of_toNat_eq ?_
  have h1 := r.code.isLt
  have h2 := op.isLt
  have h3 := eidx.isLt
  simp only [statusReserved, BitVec.extractLsb'_toNat, toNat_mkStatus, Nat.shiftRight_eq_div_pow]
  simp; omega

/-- The code of `OK` is 0 and no other code is (R99). -/
@[simp] theorem code_eq_zero_iff (r : ResultCode) : r.code = 0 ↔ r = .ok := by cases r <;> decide

theorem toNat_code_le (r : ResultCode) : r.code.toNat ≤ 6 := by cases r <;> decide

end Sys2Proof.Machine
end

