-- ==== Sys2Proof/Laws/Exec.lean ====
section
/-! SUPPORT. What each command answers, one lemma per way it ends, and once for all commands (`exec_ends`): later proofs
cite these and do not unfold a meaning. -/

namespace Sys2Proof.Machine

/-- Where `CKSUM` succeeds (R68). -/
theorem cksumWith_ok {H : HashFn} {n : Nat} (s : State) (h : n ≤ 256) :
    cksumWith H n s = finish 1 (putChecksum (checksumBits H s.entropy n) s) := by
  rw [cksumWith, if_neg (by omega)]

/-- Where `CKSUM` fails (R68). -/
theorem cksumWith_badParameter {H : HashFn} {n : Nat} (s : State) (h : 256 < n) :
    cksumWith H n s = raise 1 .badParameter 0 s := by rw [cksumWith, if_pos h]

/-- Where `PACK` succeeds (R75). -/
theorem execPack_ok {s : State} (h11 : s.packBits % 11 = 0) (h24 : s.packBits / 11 ≤ 24) :
    execPack s = finish 2 (putIndices (pack s.entropy s.checksum) s) := by
  rw [execPack, if_neg (by omega)]

/-- Where `PACK` fails (R75). -/
theorem execPack_badParameter {s : State} (h : s.packBits % 11 ≠ 0 ∨ 24 < s.packBits / 11) :
    execPack s = raise 2 .badParameter 0 s := by rw [execPack, if_pos h]

/-- The first test of `UNPACK` (R77). -/
theorem execUnpack_badIndex {s : State} {g : Nat} (ebits : Nat) (h : s.firstBadIndex = some g) :
    execUnpack ebits s = raise 3 .malformedIndex (BitVec.ofNat 5 g) s := by simp only [execUnpack, h]

/-- The second test of `UNPACK` (R77). -/
theorem execUnpack_badMultiple {s : State} {ebits : Nat} (h : s.firstBadIndex = none) (h8 : ebits % 8 ≠ 0) :
    execUnpack ebits s = raise 3 .malformedIndex 31 s := by simp only [execUnpack, h, if_pos h8]

/-- The third test of `UNPACK` (R77). -/
theorem execUnpack_badParameter {s : State} {ebits : Nat} (h : s.firstBadIndex = none) (h8 : ebits % 8 = 0)
    (hp : s.indexBits < ebits ∨ 256 < ebits ∨ 256 < s.indexBits - ebits) :
    execUnpack ebits s = raise 3 .badParameter 0 s := by simp [execUnpack, h, h8, if_pos hp]

/-- Where `UNPACK` succeeds (R77). -/
theorem execUnpack_ok {s : State} {ebits : Nat} (h : s.firstBadIndex = none) (h8 : ebits % 8 = 0)
    (hT : ebits ≤ s.indexBits) (he : ebits ≤ 256) (hc : s.indexBits - ebits ≤ 256) :
    execUnpack ebits s =
      finish 3 (putChecksum (unpack s.indices ebits).2 (putEntropy (unpack s.indices ebits).1 s)) := by
  have hp : ¬(s.indexBits < ebits ∨ 256 < ebits ∨ 256 < s.indexBits - ebits) := by omega
  simp [execUnpack, h, h8, if_neg hp]

/-- Where `ENCODE` succeeds (R82). -/
theorem encodeWith_ok (H : HashFn) {s : State} (h : s.elen.toNat ∈ Config.entLengths) :
    encodeWith H s =
      finish 4 (putIndices (pack s.entropy (s.ownChecksum H)) (putChecksum (s.ownChecksum H) s)) := by
  rw [encodeWith, if_pos h]

/-- Where `ENCODE` fails (R82). -/
theorem encodeWith_invalidLength (H : HashFn) {s : State} (h : s.elen.toNat ∉ Config.entLengths) :
    encodeWith H s = raise 4 .invalidEntropyLength 0 s := by rw [encodeWith, if_neg h]

/-- The first test of `DECODE` (R83). -/
theorem decodeWith_invalidCount (H : HashFn) {s : State} (h : s.wcnt.toNat ∉ Config.wordCounts) :
    decodeWith H s = raise 5 .invalidWordCount 0 s := by rw [decodeWith, if_neg h]

/-- The second test of `DECODE` (R83). -/
theorem decodeWith_badIndex (H : HashFn) {s : State} {g : Nat} (h : s.wcnt.toNat ∈ Config.wordCounts)
    (hb : s.firstBadIndex = some g) : decodeWith H s = raise 5 .malformedIndex (BitVec.ofNat 5 g) s := by
  simp only [decodeWith, if_pos h, hb]

/-- The third test of `DECODE` (R83). -/
theorem decodeWith_invalidChecksum {H : HashFn} {s : State} (h : s.wcnt.toNat ∈ Config.wordCounts)
    (hb : s.firstBadIndex = none) (hc : s.decodedChecksum ≠ s.expectedChecksum H) :
    decodeWith H s = raise 5 .invalidChecksum 0 s := by simp only [decodeWith, if_pos h, hb, if_neg hc]

/-- Where `DECODE` succeeds (R83). -/
theorem decodeWith_ok {H : HashFn} {s : State} (h : s.wcnt.toNat ∈ Config.wordCounts) (hb : s.firstBadIndex = none)
    (hc : s.decodedChecksum = s.expectedChecksum H) :
    decodeWith H s = finish 5 (putChecksum s.decodedChecksum (putEntropy s.decodedEntropy s)) := by
  simp only [decodeWith, if_pos h, hb, if_pos hc]

/-- A valid entropy length, as an explicit list of cases (R5). -/
theorem mem_entLengths {n : Nat} : n ∈ Config.entLengths ↔ n = 16 ∨ n = 20 ∨ n = 24 ∨ n = 28 ∨ n = 32 := by
  simp [Config.entLengths]

/-- A valid word count, as an explicit list of cases (R5). -/
theorem mem_wordCounts {n : Nat} : n ∈ Config.wordCounts ↔ n = 12 ∨ n = 15 ∨ n = 18 ∨ n = 21 ∨ n = 24 := by
  simp [Config.wordCounts]

theorem length_decodedEntropy (s : State) :
    s.decodedEntropy.length = min (entropyBits s.wcnt.toNat) (11 * s.wcnt.toNat) / 8 := by simp [State.decodedEntropy]

theorem length_decodedChecksum (s : State) :
    s.decodedChecksum.length = 11 * s.wcnt.toNat - entropyBits s.wcnt.toNat := by simp [State.decodedChecksum]

@[simp] theorem length_ownChecksum (H : HashFn) (s : State) :
    (s.ownChecksum H).length = min (checksumLength s.elen.toNat) 256 := by simp [State.ownChecksum]

/-- The registers a command leaves alone on `OK`, the bus, and a length it did not keep is within its capacity. -/
structure Kept (i : Instr) (s u : State) : Prop where
  frame : ∀ r, writes i r = false → readReg u r = readReg s r
  bus : SameBus s u
  elen : u.elen = s.elen ∨ u.elen.toNat ≤ 32
  cslen : u.cslen = s.cslen ∨ u.cslen.toNat ≤ 256
  wcnt : u.wcnt = s.wcnt ∨ u.wcnt.toNat ≤ 24

/-- The two ways a command ends: it raises a result that a command of its opcode may end with and writes nothing but
`STATUS` (R104, R105, R112), or it ends `OK` from a state in which it has written what R33 lets it. -/
def Ends (i : Instr) (s : State) (a : Answer) : Prop :=
  (∃ r eidx, r ≠ .ok ∧ r ≠ .illegalCommand ∧ resultAllowed i.op.toNat r = true ∧
    eidxAllowed i.op.toNat eidx.toNat r = true ∧ a = raise i.op r eidx s) ∨
  (∃ u, a = finish i.op u ∧ Kept i s u)

theorem ends_nop (s : State) : Ends .nop s (execNop s) :=
  .inr ⟨s, rfl, ⟨fun _ _ => rfl, ⟨rfl, rfl⟩, .inl rfl, .inl rfl, .inl rfl⟩⟩

theorem ends_clear (s : State) : Ends .clear s (execClear s) := by
  refine .inr ⟨_, rfl, ⟨fun r hr => ?_, ⟨rfl, rfl⟩, .inr ?_, .inr ?_, .inr ?_⟩⟩
  cases r <;> first | (simp [writes] at hr; done) | rfl
  all_goals simp

theorem ends_cksum (H : HashFn) (n : Nat) (s : State) : Ends (.cksum n) s (cksumWith H n s) := by
  by_cases h : n ≤ 256
  · rw [cksumWith_ok s h]
    refine .inr ⟨_, rfl, ⟨fun r hr => ?_, ⟨rfl, rfl⟩, .inl rfl, .inr ?_, .inl rfl⟩⟩
    · cases r <;> first | (cases hr; done) | rfl
    · simp; omega
  · rw [cksumWith_badParameter s (by omega)]
    exact .inl ⟨.badParameter, 0, by decide, by decide, rfl, rfl, rfl⟩

theorem ends_pack (s : State) : Ends .pack s (execPack s) := by
  by_cases h : s.packBits % 11 ≠ 0 ∨ 24 < s.packBits / 11
  · rw [execPack_badParameter h]
    exact .inl ⟨.badParameter, 0, by decide, by decide, rfl, rfl, rfl⟩
  · rw [execPack_ok (by omega) (by omega)]
    refine .inr ⟨_, rfl, ⟨fun r hr => ?_, ⟨rfl, rfl⟩, .inl rfl, .inl rfl, .inr ?_⟩⟩
    · cases r <;> first | (cases hr; done) | rfl
    · have hq : s.packBits / 11 ≤ 24 := by omega
      simp only [putIndices_wcnt, length_pack, length_entropy, length_checksum, BitVec.toNat_ofNat]
      exact Nat.le_trans (Nat.mod_le _ _) hq

theorem ends_unpack (ebits : Nat) (s : State) : Ends (.unpack ebits) s (execUnpack ebits s) := by
  cases hb : s.firstBadIndex with
  | some g =>
    have hg := firstBadIndex_lt hb
    rw [execUnpack_badIndex ebits hb]
    refine .inl ⟨.malformedIndex, BitVec.ofNat 5 g, by decide, by decide, rfl, ?_, rfl⟩
    simp [eidxAllowed]; omega
  | none =>
    by_cases h8 : ebits % 8 = 0
    · by_cases hp : s.indexBits < ebits ∨ 256 < ebits ∨ 256 < s.indexBits - ebits
      · rw [execUnpack_badParameter hb h8 hp]
        exact .inl ⟨.badParameter, 0, by decide, by decide, rfl, rfl, rfl⟩
      · rw [execUnpack_ok hb h8 (by omega) (by omega) (by omega)]
        simp only [State.indexBits] at hp
        refine .inr ⟨_, rfl, ⟨fun r hr => ?_, ⟨rfl, rfl⟩, .inr ?_, .inr ?_, .inl rfl⟩⟩
        · cases r <;> first | (cases hr; done) | rfl
        · simp [Nat.min_eq_left (show ebits ≤ 11 * s.wcnt.toNat by omega)]; omega
        · simp; omega
    · rw [execUnpack_badMultiple hb h8]
      exact .inl ⟨.malformedIndex, 31, by decide, by decide, rfl, rfl, rfl⟩

theorem ends_encode (H : HashFn) (s : State) : Ends .encode s (encodeWith H s) := by
  by_cases h : s.elen.toNat ∈ Config.entLengths
  · rw [encodeWith_ok H h]
    refine .inr ⟨_, rfl, ⟨fun r hr => ?_, ⟨rfl, rfl⟩, .inl rfl, .inr ?_, .inr ?_⟩⟩
    · cases r <;> first | (cases hr; done) | rfl
    · simp; omega
    · have := mem_entLengths.1 h
      simp [checksumLength]; omega
  · rw [encodeWith_invalidLength H h]
    exact .inl ⟨.invalidEntropyLength, 0, by decide, by decide, rfl, rfl, rfl⟩

theorem ends_decode (H : HashFn) (s : State) : Ends .decode s (decodeWith H s) := by
  by_cases h : s.wcnt.toNat ∈ Config.wordCounts
  · cases hb : s.firstBadIndex with
    | some g =>
      have hg := firstBadIndex_lt hb
      rw [decodeWith_badIndex H h hb]
      refine .inl ⟨.malformedIndex, BitVec.ofNat 5 g, by decide, by decide, rfl, ?_, rfl⟩
      simp [eidxAllowed]; omega
    | none =>
      by_cases hc : s.decodedChecksum = s.expectedChecksum H
      · have hw := mem_wordCounts.1 h
        rw [decodeWith_ok h hb hc]
        refine .inr ⟨_, rfl, ⟨fun r hr => ?_, ⟨rfl, rfl⟩, .inr ?_, .inr ?_, .inl rfl⟩⟩
        · cases r <;> first | (cases hr; done) | rfl
        · rcases hw with h | h | h | h | h <;> simp [length_decodedEntropy, entropyBits, h]
        · rcases hw with h | h | h | h | h <;> simp [length_decodedChecksum, entropyBits, h]
      · rw [decodeWith_invalidChecksum h hb hc]
        exact .inl ⟨.invalidChecksum, 0, by decide, by decide, rfl, rfl, rfl⟩
  · rw [decodeWith_invalidCount H h]
    exact .inl ⟨.invalidWordCount, 0, by decide, by decide, rfl, rfl, rfl⟩

/-- How any command ends. -/
theorem exec_ends (i : Instr) (s : State) : Ends i s (exec i s) := by
  cases i with
  | nop => exact ends_nop s
  | cksum n => exact ends_cksum hashPort n s
  | pack => exact ends_pack s
  | unpack ebits => exact ends_unpack ebits s
  | encode => exact ends_encode hashPort s
  | decode => exact ends_decode hashPort s
  | clear => exact ends_clear s

/-- Every command answers a next state. -/
theorem exec_next (i : Instr) (s : State) : ∃ t, exec i s = .next t := by
  rcases exec_ends i s with ⟨r, e, -, -, -, -, h⟩ | ⟨u, h, -⟩ <;> rw [h] <;> exact ⟨_, rfl⟩

/-- No command touches the bus fields. -/
theorem exec_sameBus {i : Instr} {s t : State} (h : exec i s = .next t) : SameBus s t := by
  rcases exec_ends i s with ⟨r, e, -, -, -, -, he⟩ | ⟨u, he, k⟩
  · rw [h] at he; cases he; exact ⟨rfl, rfl⟩
  · rw [h] at he; cases he; exact k.bus

/-- What a `PACK` that ended `OK` was given and left. -/
theorem execPack_result_ok {s t : State} (h : execPack s = .next t) (hs : statusResult t.status = 0) :
    s.packBits % 11 = 0 ∧ s.packBits / 11 ≤ 24 ∧
      t = { putIndices (pack s.entropy s.checksum) s with status := mkStatus .ok 2 0 } := by
  by_cases hp : s.packBits % 11 ≠ 0 ∨ 24 < s.packBits / 11
  · rw [execPack_badParameter hp] at h; cases h; simp [ResultCode.code] at hs
  · rw [execPack_ok (by omega) (by omega)] at h; cases h; exact ⟨by omega, by omega, rfl⟩

/-- What an `UNPACK` that ended `OK` was given and left. -/
theorem execUnpack_result_ok {s t : State} {ebits : Nat} (h : execUnpack ebits s = .next t)
    (hs : statusResult t.status = 0) :
    s.firstBadIndex = none ∧ ebits % 8 = 0 ∧ ebits ≤ s.indexBits ∧ ebits ≤ 256 ∧ s.indexBits - ebits ≤ 256 ∧
      t = { putChecksum (unpack s.indices ebits).2 (putEntropy (unpack s.indices ebits).1 s) with
              status := mkStatus .ok 3 0 } := by
  cases hb : s.firstBadIndex with
  | some g => rw [execUnpack_badIndex _ hb] at h; cases h; simp [ResultCode.code] at hs
  | none =>
    by_cases h8 : ebits % 8 = 0
    · by_cases hp : s.indexBits < ebits ∨ 256 < ebits ∨ 256 < s.indexBits - ebits
      · rw [execUnpack_badParameter hb h8 hp] at h; cases h; simp [ResultCode.code] at hs
      · rw [execUnpack_ok hb h8 (by omega) (by omega) (by omega)] at h; cases h
        exact ⟨rfl, h8, by omega, by omega, by omega, rfl⟩
    · rw [execUnpack_badMultiple hb h8] at h; cases h; simp [ResultCode.code] at hs

/-- What a `DECODE` that ended `OK` was given and left. -/
theorem decodeWith_result_ok {H : HashFn} {s t : State} (h : decodeWith H s = .next t)
    (hs : statusResult t.status = 0) :
    s.wcnt.toNat ∈ Config.wordCounts ∧ s.firstBadIndex = none ∧ s.decodedChecksum = s.expectedChecksum H ∧
      t = { putChecksum s.decodedChecksum (putEntropy s.decodedEntropy s) with status := mkStatus .ok 5 0 } := by
  by_cases hl : s.wcnt.toNat ∈ Config.wordCounts
  · cases hb : s.firstBadIndex with
    | some g => rw [decodeWith_badIndex _ hl hb] at h; cases h; simp [ResultCode.code] at hs
    | none =>
      by_cases hc : s.decodedChecksum = s.expectedChecksum H
      · rw [decodeWith_ok hl hb hc] at h; cases h; exact ⟨hl, rfl, hc, rfl⟩
      · rw [decodeWith_invalidChecksum hl hb hc] at h; cases h; simp [ResultCode.code] at hs
  · rw [decodeWith_invalidCount _ hl] at h; cases h; simp [ResultCode.code] at hs

/-- The checksum bits that a command writes from a digest (R67, R68). -/
theorem csb_putChecksum_checksumBits (H : HashFn) (e : List Byte) (n : Nat) (s : State) {i : Nat} (hi : i < 256) :
    (putChecksum (checksumBits H e n) s).csb i = if i < n then (H e).getMsbD i else false := by
  rw [csb_putChecksum _ _ _ hi]
  split
  · rw [List.getD_eq_getElem _ _ (by simp; omega), getElem_checksumBits]
  · rw [List.getD_eq_default _ _ (by simp; omega)]

/-- The slots that a command writes from a packing (R73, R75). -/
theorem slot_putIndices_pack (e : List Byte) (c : List Bool) (s : State) {g : Nat} (hg : g < 24) :
    ((putIndices (pack e c) s).slot g).toNat =
      if g < (8 * e.length + c.length) / 11 then val (((combined e c).drop (11 * g)).take 11) else 0 := by
  rw [slot_putIndices _ _ _ hg]
  split
  · rw [List.getD_eq_getElem _ _ (by simp; omega), getElem_pack, BitVec.toNat_ofNat, Nat.mod_eq_of_lt]
    refine Nat.lt_of_lt_of_le (val_lt _) (Nat.pow_le_pow_right (by omega) ?_)
    simp
  · rw [List.getD_eq_default _ _ (by simp; omega)]; rfl

/-- No index of a sequence is bad when all are below 2048. -/
theorem firstBadIndex_eq_none_of_lt {s : State} (h : ∀ v ∈ s.indices, v < 2048) : s.firstBadIndex = none := by
  rw [State.firstBadIndex, List.findIdx?_eq_none_iff]
  intro v hv
  have := h v hv
  simp; omega

/-- The lengths of two equal values are equal, register and all. -/
theorem elen_eq_of_entropy_eq {s t : State} (h : t.entropy = s.entropy) : t.elen = s.elen :=
  BitVec.eq_of_toNat_eq (by simpa using congrArg List.length h)

theorem cslen_eq_of_checksum_eq {s t : State} (h : t.checksum = s.checksum) : t.cslen = s.cslen :=
  BitVec.eq_of_toNat_eq (by simpa using congrArg List.length h)

theorem wcnt_eq_of_indices_eq {s t : State} (h : t.indices = s.indices) : t.wcnt = s.wcnt :=
  BitVec.eq_of_toNat_eq (by simpa using congrArg List.length h)

end Sys2Proof.Machine
end

