-- ==== Sys2Proof/Laws/Flip.lean ====
section
/-! SUPPORT. What flipping one bit of the index stream does to the index buffer (R85). -/

namespace Sys2Proof.Machine

theorem slot_flipStreamBit (s : State) (p k : Nat) (hp : p / 11 < 24) :
    (s.flipStreamBit p).slot k =
      if k = p / 11 then s.slot k ^^^ BitVec.ofNat 32 (2 ^ (10 - p % 11)) else s.slot k := by
  simp only [State.flipStreamBit, State.slot]
  by_cases hk : k < 24
  · rw [Vector.getElem?_eq_getElem hk, Option.getD_some, Vector.getElem_setIfInBounds]
    split
    · rename_i h; subst h; simp [Vector.getElem?_eq_getElem hk]
    · rename_i h; rw [if_neg (by omega), Vector.getElem?_eq_getElem hk, Option.getD_some]
  · rw [if_neg (by omega), Vector.getElem?_eq_none (by omega), Vector.getElem?_eq_none (by omega)]

theorem toNat_slot_flipStreamBit (s : State) (p : Nat) (hp : p / 11 < 24) :
    ((s.flipStreamBit p).slot (p / 11)).toNat = (s.slot (p / 11)).toNat ^^^ 2 ^ (10 - p % 11) := by
  rw [slot_flipStreamBit _ _ _ hp, if_pos rfl, BitVec.toNat_xor, BitVec.toNat_ofNat, Nat.mod_eq_of_lt]
  exact Nat.pow_lt_pow_right (by omega) (by omega)

/-- The stream changes in bit `p` and nowhere else. -/
theorem indexStream_flipStreamBit (s : State) (p : Nat) (hp : p / 11 < 24) :
    indexStream (s.flipStreamBit p).indices = (indexStream s.indices).modify p (!·) := by
  have hw : (s.flipStreamBit p).wcnt = s.wcnt := rfl
  refine List.ext_getElem (by simp [hw]) fun q h1 h2 => ?_
  rw [getElem_indexStream, List.getElem_modify, getElem_indexStream]
  simp at h1
  rw [hw] at h1
  rw [List.getD_eq_getElem _ _ (by simp [hw]; omega), List.getD_eq_getElem _ _ (by simp; omega), getElem_indices,
    getElem_indices]
  by_cases hq : q / 11 = p / 11
  · rw [hq, toNat_slot_flipStreamBit s p hp, Nat.testBit_xor, Nat.testBit_two_pow]
    by_cases h : p = q
    · subst h; simp
    · rw [if_neg h, decide_eq_false (by omega)]; simp
  · rw [slot_flipStreamBit s p _ hp, if_neg hq, if_neg (by rintro rfl; exact hq rfl)]

/-- No index leaves its range. -/
theorem firstBadIndex_flipStreamBit {s : State} {p : Nat} (hp : p / 11 < 24) (h : s.firstBadIndex = none) :
    (s.flipStreamBit p).firstBadIndex = none := by
  rw [firstBadIndex_eq_none] at h ⊢
  intro g hg
  by_cases hq : g = p / 11
  · subst hq
    rw [toNat_slot_flipStreamBit s p hp]
    have h1 := h _ hg
    have h2 : 2 ^ (10 - p % 11) < 2 ^ 11 := Nat.pow_lt_pow_right (by omega) (by omega)
    have := Nat.xor_lt_two_pow (show (s.slot (p / 11)).toNat < 2 ^ 11 by omega) h2
    omega
  · rw [slot_flipStreamBit s p _ hp, if_neg hq]; exact h g hg

end Sys2Proof.Machine
end

