-- ==== Sys2Proof/Laws/PerInstr.lean ====
section
/-! SUPPORT. Statements about every command as syntax, one lemma per constructor (LAWS.json). -/

namespace Sys2Proof.Laws.EncodeFields

/-- The command word of a well-formed command holds its opcode and its immediate, and zeros above them (R56). -/
def Statement (i : Instr) : Prop :=
  i.WellFormed → fieldOp (encode i) = i.op ∧ (fieldImm (encode i)).toNat = i.imm ∧ fieldZero (encode i) = 0

theorem nop : Statement .nop := fun h => ⟨fieldOp_encode h, toNat_fieldImm_encode h, fieldZero_encode h⟩
theorem cksum (n : Nat) : Statement (.cksum n) := fun h =>
  ⟨fieldOp_encode h, toNat_fieldImm_encode h, fieldZero_encode h⟩
theorem pack : Statement .pack := fun h => ⟨fieldOp_encode h, toNat_fieldImm_encode h, fieldZero_encode h⟩
theorem unpack (ebits : Nat) : Statement (.unpack ebits) := fun h =>
  ⟨fieldOp_encode h, toNat_fieldImm_encode h, fieldZero_encode h⟩
theorem encode : Statement .encode := fun h => ⟨fieldOp_encode h, toNat_fieldImm_encode h, fieldZero_encode h⟩
theorem decode : Statement .decode := fun h => ⟨fieldOp_encode h, toNat_fieldImm_encode h, fieldZero_encode h⟩
theorem clear : Statement .clear := fun h => ⟨fieldOp_encode h, toNat_fieldImm_encode h, fieldZero_encode h⟩

end Sys2Proof.Laws.EncodeFields
end

