-- ==== Sys2Proof/Laws/Registers.lean ====
section
/-! SUPPORT. The register window: which offset holds which register, and what a store leaves in each. -/

namespace Sys2Proof.Machine

theorem regAtWord_offset (r : Reg) : regAtWord (r.offset.toNat / 4) = some r := by
  cases r with
  | entw k => revert k; decide
  | csbw k => revert k; decide
  | idx k => revert k; decide
  | _ => rfl

theorem offset_aligned (r : Reg) : r.offset.toNat % 4 = 0 := by
  cases r with
  | entw k => revert k; decide
  | csbw k => revert k; decide
  | idx k => revert k; decide
  | _ => rfl

/-- The register at its own offset is that register (R18). -/
@[simp] theorem regAt_offset (r : Reg) : regAt r.offset = some r := by
  rw [regAt, if_pos (offset_aligned r), regAtWord_offset]

theorem toNat_offset_of_regAtWord {n : Nat} {r : Reg} (h : regAtWord n = some r) : r.offset.toNat = 4 * n := by
  unfold regAtWord at h
  repeat' split at h
  all_goals cases h <;> simp [Reg.offset, Fin.ofNat] <;> omega

/-- A register found at an offset has that offset (R18). -/
theorem offset_of_regAt (off : BitVec 8) (r : Reg) (h : regAt off = some r) : r.offset = off := by
  unfold regAt at h
  split at h
  · refine BitVec.eq_of_toNat_eq ?_
    rw [toNat_offset_of_regAtWord h]; omega
  · cases h

theorem offset_injective {r r' : Reg} (h : r.offset = r'.offset) : r = r' := by
  have := regAt_offset r
  rw [h, regAt_offset] at this
  exact (Option.some.inj this).symm

theorem regAtWord_eq_none_iff (n : Nat) : regAtWord n = none ↔ n = 6 ∨ n = 7 ∨ 48 ≤ n := by
  unfold regAtWord
  repeat' split
  all_goals
    simp only [reduceCtorEq, false_iff, true_iff]
    omega

/-- The offsets that hold no register: misaligned ones and reserved ones (R18, R41). -/
theorem regAt_eq_none_iff (off : BitVec 8) :
    regAt off = none ↔ off.toNat % 4 ≠ 0 ∨ off.toNat = 0x18 ∨ off.toNat = 0x1C ∨ 0xC0 ≤ off.toNat := by
  unfold regAt
  generalize off.toNat = n
  split
  · rw [regAtWord_eq_none_iff]; omega
  · simp only [true_iff]; omega

/-- What a successful store of the host leaves: the register written, every other register as before, and the model's
own fields as before (R36, R43). -/
theorem storeReg_spec {s t : State} {r : Reg} {v : Word} (h : storeReg s r v = some t) :
    (∀ r', readReg t r' = if r' = r then v else readReg s r') ∧ t.pending = s.pending ∧ t.reply = s.reply := by
  cases r with
  | id => cases h
  | cmd => cases h
  | status => cases h
  | elen =>
    simp only [storeReg] at h
    split at h
    · cases h
      exact ⟨fun r' => by cases r' <;> simp [readReg], rfl, rfl⟩
    · cases h
  | cslen =>
    simp only [storeReg] at h
    split at h
    · cases h
      exact ⟨fun r' => by cases r' <;> simp [readReg], rfl, rfl⟩
    · cases h
  | wcnt =>
    simp only [storeReg] at h
    split at h
    · cases h
      exact ⟨fun r' => by cases r' <;> simp [readReg], rfl, rfl⟩
    · cases h
  | entw k =>
    cases h
    refine ⟨fun r' => ?_, rfl, rfl⟩
    cases r' <;> simp [readReg, Vector.getElem_set, Fin.ext_iff, eq_comm]
  | csbw k =>
    cases h
    refine ⟨fun r' => ?_, rfl, rfl⟩
    cases r' <;> simp [readReg, Vector.getElem_set, Fin.ext_iff, eq_comm]
  | idx k =>
    cases h
    refine ⟨fun r' => ?_, rfl, rfl⟩
    cases r' <;> simp [readReg, Vector.getElem_set, Fin.ext_iff, eq_comm]

/-- When a store is refused: the read-only registers, and a length register above its capacity (R52 (c), (d)). -/
theorem storeReg_eq_none_iff (s : State) (r : Reg) (v : Word) :
    storeReg s r v = none ↔ r = .id ∨ r = .cmd ∨ r = .status ∨ (r = .elen ∧ 32 < v.toNat) ∨
      (r = .cslen ∧ 256 < v.toNat) ∨ (r = .wcnt ∧ 24 < v.toNat) := by
  cases r <;> simp [storeReg]

end Sys2Proof.Machine
end

