-- ==== Sys2Proof/Laws/Step.lean ====
section
/-! SUPPORT. What one step does, by the event it takes: later proofs cite these and do not unfold the step. -/

namespace Sys2Proof.Machine

/-- With nothing pending a step changes nothing. -/
theorem step_idle {s : State} (h : s.pending = []) : step s = .next s := by simp only [step, serve, h]

/-- A step takes the next event and performs it. -/
theorem step_event {s : State} {ev : BusEvent} {rest : List BusEvent} (h : s.pending = ev :: rest) :
    step s = perform { s with pending := rest } ev := by simp only [step, serve, h]

/-- A read of a register (R35). -/
theorem busRead_reg (s : State) (r : Reg) : busRead s r.offset 4 = (.okay, readReg s r) := by
  simp [busRead]

/-- A read that is refused (R35, R52). -/
theorem busRead_refused (s : State) {off : BitVec 8} {size : Nat} (h : size ≠ 4 ∨ regAt off = none) :
    busRead s off size = (.error, 0) := by
  unfold busRead
  split
  · rename_i h4
    rw [h.resolve_left (by simpa using h4)]
  · rfl

/-- A write to `CMD` executes the word, with response `OKAY` (R45, R52). -/
theorem busWrite_cmd (s : State) (w : Word) : busWrite s Reg.cmd.offset 4 w = runWord w (s.answerWrite .okay) := by
  simp [busWrite]

/-- A write to any other register stores or is refused (R36, R52). -/
theorem busWrite_reg (s : State) {r : Reg} (v : Word) (h : r ≠ .cmd) :
    busWrite s r.offset 4 v = writeStorage s r v := by
  cases r <;> simp [busWrite] at h ⊢

/-- A write that reaches no register is refused (R52 (a), (b)). -/
theorem busWrite_refused (s : State) {off : BitVec 8} {size : Nat} (v : Word) (h : size ≠ 4 ∨ regAt off = none) :
    busWrite s off size v = .next (s.answerWrite .error) := by
  unfold busWrite
  split
  · rename_i h4
    rw [h.resolve_left (by simpa using h4)]
  · rfl

/-- The word of a command runs that command. -/
theorem runWord_ok {w : Word} {i : Instr} (s : State) (h : decode w = .ok i) : runWord w s = exec i s := by
  simp only [runWord, h]

/-- Any other word writes `STATUS` only (R59). -/
theorem runWord_illegal {w : Word} {e : Illegal} (s : State) (h : decode w = .error e) :
    runWord w s = illegalCommand w s := by simp only [runWord, h]

/-- A word is a command or is refused by name (R65). -/
theorem decode_cases (w : Word) : (∃ i, decode w = .ok i) ∨ ∃ e, decode w = .error e := by
  cases h : decode w <;> simp

/-- Every word written to `CMD` answers a next state. -/
theorem runWord_next (w : Word) (s : State) : ∃ t, runWord w s = .next t := by
  rcases decode_cases w with ⟨i, hi⟩ | ⟨e, hi⟩
  · rw [runWord_ok _ hi]; exact exec_next i s
  · rw [runWord_illegal _ hi]; exact ⟨_, rfl⟩

/-- No word written to `CMD` touches the bus fields further. -/
theorem runWord_sameBus {w : Word} {s t : State} (h : runWord w s = .next t) : SameBus s t := by
  rcases decode_cases w with ⟨i, hi⟩ | ⟨e, hi⟩
  · rw [runWord_ok _ hi] at h; exact exec_sameBus h
  · rw [runWord_illegal _ hi] at h; cases h; exact ⟨rfl, rfl⟩

/-- A host's store never changes `STATUS` (R22). -/
theorem storeReg_status {s t : State} {r : Reg} {v : Word} (h : storeReg s r v = some t) : t.status = s.status := by
  cases r <;> simp only [storeReg] at h
  all_goals first
    | (cases h; done)
    | (cases h; rfl)
    | (split at h <;> cases h; rfl)

/-- What a step can do: nothing; a read; a reset; a refused write; a word for `CMD`; a store to another register. -/
theorem step_cases (s : State) :
    (s.pending = [] ∧ step s = .next s) ∨
    ∃ ev rest, s.pending = ev :: rest ∧
      ((∃ off size, ev = .read off size ∧
          step s = .next { s with
            pending := rest, reply := some (.read (busRead s off size).1 (busRead s off size).2) }) ∨
       (ev = .reset ∧ step s = .next { State.reset with pending := rest }) ∨
       (∃ off size v, ev = .write off size v ∧ (size ≠ 4 ∨ regAt off = none) ∧
          step s = .next { s with pending := rest, reply := some (.write .error) }) ∨
       (∃ w, ev = .write Reg.cmd.offset 4 w ∧
          step s = runWord w { s with pending := rest, reply := some (.write .okay) }) ∨
       (∃ r v, r ≠ .cmd ∧ ev = .write r.offset 4 v ∧ step s = writeStorage { s with pending := rest } r v)) := by
  cases h : s.pending with
  | nil => exact .inl ⟨rfl, step_idle h⟩
  | cons ev rest =>
    refine .inr ⟨ev, rest, rfl, ?_⟩
    cases ev with
    | read off size => exact .inl ⟨off, size, rfl, step_event h⟩
    | reset => exact .inr (.inl ⟨rfl, step_event h⟩)
    | write off size v =>
      refine .inr (.inr ?_)
      by_cases hr : size ≠ 4 ∨ regAt off = none
      · exact .inl ⟨off, size, v, rfl, hr, (step_event h).trans (busWrite_refused _ v hr)⟩
      · obtain ⟨h4, hn⟩ := not_or.1 hr
        obtain rfl : size = 4 := by omega
        obtain ⟨r, hrr⟩ := Option.ne_none_iff_exists'.1 hn
        obtain rfl := offset_of_regAt _ _ hrr
        by_cases hc : r = .cmd
        · subst hc
          exact .inr (.inl ⟨v, rfl, (step_event h).trans (busWrite_cmd _ v)⟩)
        · exact .inr (.inr ⟨r, v, hc, rfl, (step_event h).trans (busWrite_reg _ v hc)⟩)

/-- Every step answers a next state (R98). -/
theorem step_next (s : State) : ∃ t, step s = .next t := by
  rcases step_cases s with ⟨-, h⟩ | ⟨ev, rest, -, ⟨o, z, -, h⟩ | ⟨-, h⟩ | ⟨_, _, _, -, -, h⟩ | ⟨w, -, h⟩ |
    ⟨r, v, -, -, h⟩⟩ <;> rw [h]
  · exact ⟨_, rfl⟩
  · exact ⟨_, rfl⟩
  · exact ⟨_, rfl⟩
  · exact ⟨_, rfl⟩
  · exact runWord_next _ _
  · unfold writeStorage; split <;> exact ⟨_, rfl⟩

/-- The first step of a run. -/
theorem run_cons (n : Nat) {s t : State} (h : step s = .next t) :
    Sys2Proof.core.run (n + 1) s = Sys2Proof.core.run n t := by
  have h' : Sys2Proof.core.step s = .next t := h
  simp only [Host.Core.run, h']

/-- What every step keeps, every run keeps. -/
theorem run_keeps {P : State → Prop} (hP : ∀ s t, P s → step s = .next t → P t) (n : Nat) :
    ∀ s t, P s → Sys2Proof.core.run n s = .next t → P t := by
  induction n with
  | zero => intro s t hs h; cases h; exact hs
  | succ n ih =>
    intro s t hs h
    obtain ⟨u, hu⟩ := step_next s
    exact ih u t (hP s u hs hu) ((run_cons n hu).symm.trans h)

/-- A store that is accepted, as one step (R36). -/
theorem step_store {s u : State} {r : Reg} {v : Word} {rest : List BusEvent}
    (h : s.pending = .write r.offset 4 v :: rest) (hu : storeReg { s with pending := rest } r v = some u) :
    step s = .next (u.answerWrite .okay) := by
  have hc : r ≠ .cmd := by rintro rfl; cases hu
  exact (step_event h).trans ((busWrite_reg _ v hc).trans (by rw [writeStorage, hu]))

/-- After writes of `f r` to the registers `r` of a list, none of them refused, each register of the list holds its value
and no other register has changed. -/
theorem run_stores (f : Reg → Word) (rs : List Reg) :
    ∀ s : State, (∀ r ∈ rs, ∀ s : State, storeReg s r (f r) ≠ none) →
      s.pending = rs.map (fun r => .write r.offset 4 (f r)) →
      ∃ t, Sys2Proof.core.run rs.length s = .next t ∧ ∀ r, readReg t r = if r ∈ rs then f r else readReg s r := by
  induction rs with
  | nil => intro s _ _; exact ⟨s, rfl, fun r => by simp⟩
  | cons r rs ih =>
    intro s hok hp
    obtain ⟨u, hu⟩ := Option.ne_none_iff_exists'.1 (hok r (by simp)
      { s with pending := rs.map (fun r => .write r.offset 4 (f r)) })
    obtain ⟨hr, hpend, -⟩ := storeReg_spec hu
    obtain ⟨t, ht, h⟩ := ih (u.answerWrite .okay) (fun r' h' => hok r' (by simp [h'])) hpend
    refine ⟨t, (run_cons _ (step_store hp hu)).trans ht, fun r' => ?_⟩
    rw [h, readReg_answerWrite, hr]
    by_cases h1 : r' = r
    · subst h1; simp
    · simp only [List.mem_cons, h1, false_or, if_false]
      refine if_congr Iff.rfl rfl ?_
      cases r' <;> rfl

end Sys2Proof.Machine
end

