-- ==== Sys2Proof/Tests/Slice0.lean ====
section
/-! SUPPORT. Small tests, the smoke test of `WellFormed`, and for every statement with hypotheses a state that meets them.
The expected values are those of 30_encoding.md R66, 20_memory.md R54 and 95_test_vectors.md, which the spec says were
computed from its rules and not by this model. -/

namespace Sys2Proof.Tests

open Sys2Proof.Machine

/-- The state a command or a step leaves (the reset state if it left none). -/
def after (a : Answer) : State :=
  match a with
  | .next t => t
  | .fault _ => State.reset
  | .refused _ => State.reset

/-- A buffer of eight words whose first words are given. -/
def words8 (ws : List Word) : Vector Word 8 := Vector.ofFn fun k => ws.getD k 0

/-- An index buffer whose first slots are given. -/
def slots (ws : List Word) : Vector Word 24 := Vector.ofFn fun k => ws.getD k 0

/-- The source's entropy, with the checksum-bit buffer filled to show what is overwritten (95_test_vectors.md 2.1). -/
def src : State :=
  { State.reset with elen := 16, entw := words8 [0x33E46BB1, 0x3A746EA4, 0x1CDDE45C, 0x90846A79],
                     cslen := 256, csbw := Vector.replicate 8 0xFFFFFFFF }

/-- The indices of the source's entropy (95_test_vectors.md 1.1). -/
def srcSlots : List Word := [415, 282, 1890, 935, 567, 656, 923, 1508, 740, 1057, 212, 1947]

/-- A state whose index sequence is the one given. -/
def seq (ws : List Word) : State := { State.reset with wcnt := BitVec.ofNat 32 ws.length, idx := slots ws }

/-- The source's indices with two bad slots (95_test_vectors.md 2.3). -/
def twoBad : State := seq [415, 282, 1890, 935, 567, 0xFFFFFFFF, 923, 4096, 740, 1057, 212, 1947]

/-- Three 9s in the index buffer, `A5` as entropy and the checksum bits 1, 1, 0 (95_test_vectors.md 2.2). -/
def packA5 : State :=
  { seq [9, 9, 9] with elen := 1, entw := words8 [0xA5FFFFFF], cslen := 3, csbw := words8 [0xDFFFFFFF] }

/-- A state with one event to come. -/
def withEvent (s : State) (ev : BusEvent) : State := { s with pending := [ev] }

/-- What holds of the state a command leaves. -/
theorem of_exec {i : Instr} {s : State} {P : State → Prop} (h : P (after (exec i s))) :
    ∃ t, exec i s = .next t ∧ P t := by
  obtain ⟨t, ht⟩ := exec_next i s
  rw [ht] at h
  exact ⟨t, ht, h⟩

/-- What holds of the state a step leaves. -/
theorem of_step {s : State} {P : State → Prop} (h : P (after (step s))) : ∃ t, step s = .next t ∧ P t := by
  obtain ⟨t, ht⟩ := step_next s
  rw [ht] at h
  exact ⟨t, ht, h⟩

/-! ### Well-formedness: each check refuses an ill-formed term -/

theorem test_wellFormed_cksum : ¬(Instr.cksum 512).WellFormed ∧ (Instr.cksum 511).WellFormed := by decide
theorem test_wellFormed_unpack : ¬(Instr.unpack 512).WellFormed ∧ (Instr.unpack 511).WellFormed := by decide

/-! ### Decoding: words written out field by field, bits 31:13, 12:4 and 3:0 (R56, R58, R66) -/

theorem test_decode_nop : decode (0b0000000000000000000#19 ++ 0b000000000#9 ++ 0b0000#4) = .ok .nop := by decide
theorem test_decode_cksum : decode (0b0000000000000000000#19 ++ 0b100000000#9 ++ 0b0001#4) = .ok (.cksum 256) := by decide
theorem test_decode_pack : decode (0b0000000000000000000#19 ++ 0b000000000#9 ++ 0b0010#4) = .ok .pack := by decide
theorem test_decode_unpack : decode (0b0000000000000000000#19 ++ 0b010100000#9 ++ 0b0011#4) = .ok (.unpack 160) := by
  decide
theorem test_decode_encode : decode (0b0000000000000000000#19 ++ 0b000000000#9 ++ 0b0100#4) = .ok .encode := by decide
theorem test_decode_decode : decode (0b0000000000000000000#19 ++ 0b000000000#9 ++ 0b0101#4) = .ok .decode := by decide
theorem test_decode_clear : decode (0b0000000000000000000#19 ++ 0b000000000#9 ++ 0b0110#4) = .ok .clear := by decide

/-- Each way a word is no command, by name (R59). -/
theorem test_decode_illegal :
    decode 0x00000007 = .error .reservedOpcode ∧ decode 0x0000000F = .error .reservedOpcode ∧
    decode 0x00000010 = .error .immediate ∧ decode 0x00000016 = .error .immediate ∧
    decode 0x00002000 = .error .zeroField ∧ decode 0x80000001 = .error .zeroField := by decide

/-- The host's two entry points on a table row's word. -/
theorem test_table_word :
    decodeTableWord 32 0x00000803 = some (.unpack 128) ∧ decodeTableWord 32 0x00000007 = none ∧
    decodeTableWord 8 0x00000016 = none ∧
    after (step (State.reset.withFetchWord 32 0x00000006)) =
      { State.reset with status := 0x60, reply := some (.write .okay) } := by decide +kernel

/-! ### The commands -/

theorem test_nop : (after (exec .nop { src with status := 0x15 })) = { src with status := 0 } := by decide +kernel

theorem test_clear : (after (exec .clear { src with wcnt := 24, idx := Vector.replicate 24 7 })) =
    { State.reset with status := 0x60 } := by decide +kernel

theorem test_cksum_9 : (after (exec (.cksum 9) src)) =
    { src with status := 0x10, cslen := 9, csbw := words8 [0xB6800000] } := by decide +kernel

theorem test_cksum_257 : (after (exec (.cksum 257) src)) = { src with status := 0x15 } := by decide +kernel

theorem test_pack : (after (exec .pack packA5)) =
    { packA5 with status := 0x20, wcnt := 1, idx := slots [1326] } := by decide +kernel

theorem test_pack_too_long : (after (exec .pack { seq [9, 9, 9] with elen := 32, cslen := 19 })) =
    { seq [9, 9, 9] with elen := 32, cslen := 19, status := 0x25 } := by decide +kernel

theorem test_unpack_120 : (after (exec (.unpack 120) (seq srcSlots))) =
    { seq srcSlots with
        status := 0x30, elen := 15, entw := words8 [0x33E46BB1, 0x3A746EA4, 0x1CDDE45C, 0x90846A00],
        cslen := 12, csbw := words8 [0x79B00000] } := by decide +kernel

theorem test_unpack_failures :
    (after (exec (.unpack 127) (seq srcSlots))).status = 0x1F34 ∧
    (after (exec (.unpack 136) (seq srcSlots))).status = 0x35 ∧
    (after (exec (.unpack 127) twoBad)).status = 0x534 ∧
    (after (exec (.unpack 0) (seq (List.replicate 24 2047)))).status = 0x35 :=
  by decide +kernel

theorem test_encode : (after (exec .encode src)) =
    { src with status := 0x40, cslen := 4, csbw := words8 [0xB0000000], wcnt := 12, idx := slots srcSlots } := by
  decide +kernel

theorem test_encode_length : (after (exec .encode { src with elen := 17 })).status = 0x41 := by decide +kernel

theorem test_decode : (after (exec .decode (seq srcSlots))) =
    { seq srcSlots with
        status := 0x50, elen := 16, entw := words8 [0x33E46BB1, 0x3A746EA4, 0x1CDDE45C, 0x90846A79],
        cslen := 4, csbw := words8 [0xB0000000] } := by decide +kernel

theorem test_decode_failures :
    (after (exec .decode (seq [0, 0, 0, 0, 0, 0, 0, 0, 0, 0, 0, 4]))).status = 0x53 ∧
    (after (exec .decode (seq [0, 0, 0, 0, 0, 0, 0, 0, 0, 0, 0, 2048]))).status = 0xB54 ∧
    (after (exec .decode (seq [0, 0, 0, 0, 0, 0, 0, 0, 0, 0, 3]))).status = 0x52 := by decide +kernel

/-! ### The bus -/

theorem test_illegal_word : after (step (withEvent src (.write 0x04 4 0x00002003))) =
    { src with status := 0x36, reply := some (.write .okay) } := by decide +kernel

theorem test_write_bounds :
    (after (step (withEvent src (.write 0x0C 4 33)))).elen = 16 ∧
    (after (step (withEvent src (.write 0x0C 4 32)))).elen = 32 ∧
    (after (step (withEvent src (.write 0x60 2 1)))).idx = src.idx := by decide +kernel

theorem test_read_id : (after (step (withEvent src (.read 0x00 4)))).reply = some (.read .okay 0x42503339) := by
  decide +kernel

/-- `LDENT` as 95_test_vectors.md 1.1 writes it out. -/
theorem test_ldent : (HostAction.ldent [0x33, 0xE4, 0x6B, 0xB1, 0x3A]).events =
    [.write 0x0C 4 5, .write 0x20 4 0x33E46BB1, .write 0x24 4 0x3A000000] := by decide

/-! ### The constants of SHA-256 against their definition in R93 -/

/-- The primes below `n`. -/
def primesBelow (n : Nat) : List Nat :=
  (List.range n).filter fun p => 2 ≤ p ∧ ∀ d ∈ List.range p, 2 ≤ d → p % d ≠ 0

/-- `K[t]` is the first 32 bits of the fractional part of the cube root of the `t`-th prime. -/
theorem test_round_constants :
    (primesBelow 312).length = shaK.length ∧
    ∀ pk ∈ (primesBelow 312).zip shaK, ∃ whole ∈ List.range 7,
      (whole * 2 ^ 32 + pk.2.toNat) ^ 3 ≤ pk.1 * 2 ^ 96 ∧ pk.1 * 2 ^ 96 < (whole * 2 ^ 32 + pk.2.toNat + 1) ^ 3 := by
  decide +kernel

/-- `H0` to `H7` are the first 32 bits of the fractional parts of the square roots of the first eight primes. -/
theorem test_initial_hash :
    (primesBelow 20).length = shaInit.words.length ∧
    ∀ ph ∈ (primesBelow 20).zip shaInit.words, ∃ whole ∈ List.range 5,
      (whole * 2 ^ 32 + ph.2.toNat) ^ 2 ≤ ph.1 * 2 ^ 64 ∧ ph.1 * 2 ^ 64 < (whole * 2 ^ 32 + ph.2.toNat + 1) ^ 2 := by
  decide +kernel

/-! ### A state that meets the hypotheses of each statement -/

theorem witness_ResetEventRestoresRegisters : ∃ (s : State) (rest : List BusEvent),
    s.pending = BusEvent.reset :: rest ∧ s.elen = 16 :=
  ⟨withEvent src .reset, [], by decide⟩

/-- Every length at its capacity, and a command to come. -/
def full : State :=
  { State.reset with elen := 32, cslen := 256, wcnt := 24, status := 0x1F34, pending := [.write 0x04 4 0x00000004] }

theorem witness_StepKeepsRegistersInRange : full.InRange ∧ ∃ t, step full = .next t ∧ t.wcnt = 24 ∧ t.cslen = 8 :=
  ⟨by decide, of_step (by decide +kernel)⟩

theorem witness_StepKeepsStatusLegal :
    StatusLegal full.status ∧ ∃ t, step full = .next t ∧ t.status = 0x40 :=
  ⟨⟨.malformedIndex, 3, 31, by decide⟩, of_step (by decide +kernel)⟩

theorem witness_ReachableStatesInRange :
    (∃ t : State, t.Reachable ∧ t.elen = 32) ∧
    (32 : Word).toNat ≤ 32 ∧ (256 : Word).toNat ≤ 256 ∧ (24 : Word).toNat ≤ 24 :=
  ⟨⟨_, ⟨[.write 0x0C 4 32, .write 0x0C 4 33], 2, rfl⟩, by decide +kernel⟩, by decide⟩

theorem witness_EveryStepGoesOn :
    (∃ t, step (withEvent src (.write 0x00 4 1)) = .next t ∧ t.reply = some (.write .error)) ∧
    (∃ t, step (withEvent src (.read 0xFF 4)) = .next t ∧ ∃ data, t.reply = some (.read .error data)) :=
  ⟨of_step (by decide +kernel), of_step ⟨0, by decide +kernel⟩⟩

theorem witness_StepRunsDecodedCommand : ∃ (s : State) (rest : List BusEvent) (w : Word) (i : Instr),
    s.pending = BusEvent.write 0x04 4 w :: rest ∧ decode w = .ok i ∧ s.elen = 16 :=
  ⟨withEvent src (.write 0x04 4 0x00001FF1), [], 0x00001FF1, .cksum 511, by decide⟩

theorem witness_IdleStepChangesNothing : src.pending = [] := by decide

theorem witness_BusReadReturnsRegister :
    (∃ (s : State) (rest : List BusEvent) (r : Reg), s.pending = BusEvent.read 0xBC 4 :: rest ∧ Reg.offset r = 0xBC) ∧
    (∃ (s : State) (rest : List BusEvent), s.pending = BusEvent.read 0x00 2 :: rest ∧ (2 : Nat) ≠ 4) ∧
    (∃ (s : State) (rest : List BusEvent), s.pending = BusEvent.read 0xC0 4 :: rest ∧ ∀ r : Reg, r.offset ≠ 0xC0) := by
  refine ⟨⟨withEvent src (.read 0xBC 4), [], .idx 23, by decide⟩, ⟨withEvent src (.read 0x00 2), [], by decide⟩,
    withEvent src (.read 0xC0 4), [], by decide, fun r hr => ?_⟩
  have := regAt_offset r
  rw [hr] at this
  simp [regAt, regAtWord] at this

/-- The edges of the refused writes. -/
theorem witness_BusErrorCases :
    (∃ (s : State) (rest : List BusEvent), s.pending = BusEvent.read 0x1C 4 :: rest) ∧
    ReadRefused 0x1C 4 ∧ ¬ReadRefused 0xBC 4 ∧
    (∃ (s : State) (rest : List BusEvent), s.pending = BusEvent.write 0x0C 4 33 :: rest) ∧
    WriteRefused 0x0C 4 33 ∧ ¬WriteRefused 0x0C 4 32 ∧
    WriteRefused 0x10 4 257 ∧ ¬WriteRefused 0x10 4 256 ∧ WriteRefused 0x14 4 25 ∧ ¬WriteRefused 0x14 4 24 ∧
    WriteRefused 0x00 4 0 ∧ WriteRefused 0x08 4 0 ∧ ¬WriteRefused 0x04 4 7 ∧ WriteRefused 0x04 2 7 :=
  ⟨⟨withEvent src (.read 0x1C 4), [], by decide⟩, by decide, by decide, ⟨withEvent src (.write 0x0C 4 33), [], by decide⟩,
    by decide, by decide, by decide, by decide, by decide, by decide, by decide, by decide, by decide, by decide⟩

theorem witness_HostWriteChangesOneRegister : ∃ (s : State) (rest : List BusEvent),
    s.pending = .write (Reg.offset .cslen) 4 256 :: rest ∧ Reg.cslen ≠ .cmd ∧ ¬WriteRefused (Reg.offset .cslen) 4 256 :=
  ⟨withEvent src (.write 0x10 4 256), [], by decide⟩

theorem witness_StatusWrittenByCommandsAndReset :
    (∃ (s : State) (rest : List BusEvent), s.pending = BusEvent.write 0x04 4 0xFFFFFFFF :: rest ∧ s.elen = 16) ∧
    (∃ (s : State) (rest : List BusEvent), s.pending = BusEvent.write 0x04 2 0 :: rest ∧
      (∀ w, BusEvent.write 0x04 2 0 ≠ .write 0x04 4 w) ∧
      BusEvent.write 0x04 2 0 ≠ .reset ∧ s.elen = 16) :=
  ⟨⟨withEvent src (.write 0x04 4 0xFFFFFFFF), [], by decide⟩, withEvent src (.write 0x04 2 0), [], rfl, by simp, by simp,
    by decide⟩

/-- The two ends of the window, whatever `BASE` is. -/
theorem witness_BusAddressesOfTheWindow :
    windowOffset Config.base = some 0x00 ∧ windowOffset (Config.base + 255) = some 0xFF ∧
    windowOffset (Config.base + 256) = none := by
  simp [windowOffset, Config.window]

theorem witness_LdentLoadsTheEntropy :
    (List.replicate 32 (0xFF : Byte)).length ≤ 32 ∧ ([] : List Byte).length ≤ 32 ∧ ([] : List Byte).length + 3 < 4 := by
  decide

theorem witness_IllegalWordsAndTheirEffect : ∃ (s : State) (rest : List BusEvent),
    (∀ i, decode 0x00002003 ≠ .ok i) ∧ s.pending = BusEvent.write 0x04 4 0x00002003 :: rest :=
  ⟨withEvent src (.write 0x04 4 0x00002003), [], fun i h => (by cases h), rfl⟩

/-- The cases of the decoder at the edges of their ranges, as numbers. -/
theorem witness_DecodingIsTotal :
    (0x00002000 / 8192 ≠ 0) ∧ (0x00001FF1 / 8192 = 0 ∧ 0x00001FF1 % 16 = 1 ∧ 0x00001FF1 / 16 % 512 = 511) ∧
    (0x00000003 / 8192 = 0 ∧ 0x00000003 % 16 = 3) ∧ (0x00000006 / 8192 = 0 ∧ 0x00000006 / 16 % 512 = 0) ∧
    (0x00001FF6 / 8192 = 0 ∧ 0x00001FF6 % 16 ∈ [0, 2, 4, 5, 6] ∧ 0x00001FF6 / 16 % 512 ≠ 0) ∧
    (0x00000007 / 8192 = 0 ∧ 7 ≤ 0x00000007 % 16) ∧
    (∃ (s : State) (rest : List BusEvent), s.pending = BusEvent.write 0x04 4 0x00000007 :: rest ∧ s.elen = 16) :=
  ⟨by decide, by decide, by decide, by decide, by decide, by decide, withEvent src (.write 0x04 4 7), [], by decide⟩

theorem witness_DecodeOfEncode : (Instr.unpack 511).WellFormed ∧ (Instr.cksum 0).WellFormed := by decide

theorem witness_EncodeOfDecode : decode 0x00001FF3 = .ok (.unpack 511) := by decide

theorem witness_ShortChecksumIsTopOfFirstWord :
    ({ src with cslen := 32 } : State).cslen.toNat ≤ 32 ∧ (seq srcSlots).cslen.toNat ≤ 32 := by decide +kernel

theorem witness_WrittenBuffersAreZeroBeyondTheirLength :
    (∃ t, exec (.unpack 120) (seq srcSlots) = .next t ∧ statusResult t.status = 0 ∧ writes (.unpack 120) .elen = true ∧
      writes (.unpack 120) .cslen = true ∧ t.elen.toNat ≤ 31 ∧ t.cslen.toNat ≤ 255) ∧
    (∃ t, exec .pack packA5 = .next t ∧ statusResult t.status = 0 ∧ writes .pack .wcnt = true ∧ t.wcnt.toNat ≤ 23) :=
  ⟨of_exec (by decide +kernel), of_exec (by decide +kernel)⟩

theorem witness_NopResetsStatusOnly : 0 < 511 ∧ 511 < 512 := by decide

theorem witness_CksumWritesLeadingDigestBits : (256 ≤ 256 ∧ 255 < 256) ∧ 256 < 257 ∧ 511 < 512 := by decide

theorem witness_ChecksumBitsOfADigest :
    (256 ≤ 256 ∧ 0 ≤ 256) ∧
    (List.replicate 32 (0xFF : Byte)).length ∈ [16, 20, 24, 28, 32] ∧
    8 = 8 * (List.replicate 32 (0xFF : Byte)).length / 32 := by
  decide

/-- `PACK` with 264 bits, and with 128 and with 275. -/
theorem witness_PackGroupsTheStream :
    (∃ s : State, 264 = 8 * s.elen.toNat + s.cslen.toNat ∧ 264 % 11 = 0 ∧ 264 / 11 ≤ 24) ∧
    (∃ s : State, 128 = 8 * s.elen.toNat + s.cslen.toNat ∧ 128 % 11 ≠ 0) ∧
    (∃ s : State, 275 = 8 * s.elen.toNat + s.cslen.toNat ∧ 24 < 275 / 11) :=
  ⟨⟨{ src with elen := 1 }, by decide⟩, ⟨{ src with cslen := 0 }, by decide⟩,
    { src with elen := 32, cslen := 19 }, by decide⟩

theorem witness_PackAsOneNumber :
    8 * ([0xA5] : List Byte).length + [true, true, false].length = 11 * 1 ∧
    1326 = val (bits [0xA5]) * 2 ^ 3 + val [true, true, false] := by decide

theorem witness_UnpackSplitsTheStream :
    ((5 : Nat) < twoBad.wcnt.toNat ∧ 2047 < (twoBad.slot 5).toNat ∧ ∀ k < 5, (twoBad.slot k).toNat ≤ 2047) ∧
    ((∀ g < (seq srcSlots).wcnt.toNat, ((seq srcSlots).slot g).toNat ≤ 2047) ∧ 132 = 11 * (seq srcSlots).wcnt.toNat) ∧
    (127 % 8 ≠ 0) ∧ (136 % 8 = 0 ∧ 132 < 136) ∧
    (128 % 8 = 0 ∧ 128 ≤ 132 ∧ 128 ≤ 256 ∧ 132 - 128 ≤ 256) := by decide +kernel

theorem witness_EncodeWritesChecksumAndIndices :
    (src.elen.toNat ∈ [16, 20, 24, 28, 32] ∧ 4 = 8 * src.elen.toNat / 32) ∧
    (seq srcSlots).elen.toNat ∉ [16, 20, 24, 28, 32] := by decide +kernel

/-- `DECODE` in each of its four ways to end. -/
theorem witness_DecodeValidatesAndUnpacks :
    ((seq [3]).wcnt.toNat ∉ [12, 15, 18, 21, 24]) ∧
    (twoBad.wcnt.toNat ∈ [12, 15, 18, 21, 24] ∧ 2047 < (twoBad.slot 5).toNat ∧ ∀ k < 5, (twoBad.slot k).toNat ≤ 2047) ∧
    (∀ g < 12, ((seq srcSlots).slot g).toNat ≤ 2047) ∧ 128 = (seq srcSlots).wcnt.toNat * 11 * 32 / 33 ∧
    (indexStream (seq srcSlots).indices).drop 128 =
      checksumBits sha256 (bytes ((indexStream (seq srcSlots).indices).take 128)) 4 ∧
    (indexStream ((seq srcSlots).flipStreamBit 131).indices).drop 128 ≠
      checksumBits sha256 (bytes ((indexStream ((seq srcSlots).flipStreamBit 131).indices).take 128)) 4 := by
  decide +kernel

theorem witness_PackAndUnpackAreInverses :
    ((8 * ([0xA5] : List Byte).length + [true, true, false].length) % 11 = 0) ∧
    (∀ v ∈ [1365, 2047], v ≤ 2047) ∧ 16 % 8 = 0 ∧ 16 ≤ 11 * [1365, 2047].length ∧
    (packA5.InRange ∧ ∃ t, exec .pack packA5 = .next t ∧ statusResult t.status = 0) ∧
    ((seq srcSlots).InRange ∧ ∃ t, exec (.unpack 0) (seq srcSlots) = .next t ∧ statusResult t.status = 0) :=
  ⟨by decide, by decide, by decide, by decide, ⟨by decide +kernel, of_exec (by decide +kernel)⟩,
    by decide +kernel, of_exec (by decide +kernel)⟩

theorem witness_EncodeDecodeRoundTrip :
    src.elen.toNat ∈ [16, 20, 24, 28, 32] ∧
    ∃ t, exec .decode (seq srcSlots) = .next t ∧ statusResult t.status = 0 :=
  ⟨by decide, of_exec (by decide +kernel)⟩

/-- A checksum bit and an entropy bit of a valid sequence. Flipping bit 15 leaves it valid and flipping bit 0 does not
(95_test_vectors.md 3.4). -/
theorem witness_ChecksumSensitivity :
    (∃ t, exec .decode (seq srcSlots) = .next t ∧ statusResult t.status = 0 ∧ 128 = 8 * t.elen.toNat) ∧
    131 < 11 * (seq srcSlots).wcnt.toNat ∧ 128 ≤ 131 ∧ 15 < 128 ∧
    (after (exec .decode ((seq srcSlots).flipStreamBit 131))).status = 0x53 ∧
    (after (exec .decode ((seq srcSlots).flipStreamBit 15))).status = 0x50 ∧
    (after (exec .decode ((seq srcSlots).flipStreamBit 0))).status = 0x53 :=
  ⟨of_exec (by decide +kernel), by decide +kernel⟩

theorem witness_FailedCommandWritesStatusOnly :
    ∃ t, exec (.cksum 257) src = .next t ∧ statusResult t.status ≠ 0 := of_exec (by decide +kernel)

/-- Two states that differ in what `CKSUM` and `ENCODE` do not read, and two that differ in what
the other three do not. -/
theorem witness_CommandReadsOnlyItsOperands :
    (SameReads (.cksum 9) src { src with cslen := 0, entw := src.entw.set 4 0xDEADBEEF } ∧
      (∃ t, exec (.cksum 9) src = .next t ∧ statusResult t.status = 0 ∧ writes (.cksum 9) .cslen = true) ∧
      ∃ t', exec (.cksum 9) { src with cslen := 0, entw := src.entw.set 4 0xDEADBEEF } = .next t') ∧
    SameReads .encode src { src with cslen := 0, entw := src.entw.set 4 0xDEADBEEF } ∧
    SameReads .pack packA5 { packA5 with wcnt := 0, entw := packA5.entw.set 1 5 } ∧
    SameReads (.unpack 8) (seq [1365]) { seq [1365, 7] with wcnt := 1 } ∧
    SameReads .decode (seq srcSlots) { seq srcSlots with elen := 9 } ∧
    SameReads .nop src State.reset ∧ SameReads .clear src State.reset := by
  refine ⟨⟨?_, of_exec ?_, exec_next _ _⟩, ?_, ?_, ?_, ?_, trivial, trivial⟩
  · show State.entropy _ = State.entropy _; decide +kernel
  · decide +kernel
  · show State.entropy _ = State.entropy _; decide +kernel
  · show State.entropy _ = State.entropy _ ∧ State.checksum _ = State.checksum _; decide +kernel
  · show State.indices _ = State.indices _; decide +kernel
  · show State.indices _ = State.indices _; decide +kernel

theorem witness_ErrorIndexNamesTheLeastBadSlot :
    (∃ t, exec (.cksum 257) src = .next t ∧ statusResult t.status ≠ 4) ∧
    (∃ t, exec .decode twoBad = .next t ∧ statusResult t.status = 4 ∧ 5 < twoBad.wcnt.toNat ∧
      2047 < (twoBad.slot 5).toNat ∧ ∀ k < 5, (twoBad.slot k).toNat ≤ 2047) ∧
    (∃ t, exec (.unpack 127) (seq srcSlots) = .next t ∧ statusResult t.status = 4 ∧
      ∀ g < (seq srcSlots).wcnt.toNat, ((seq srcSlots).slot g).toNat ≤ 2047) :=
  ⟨of_exec (by decide +kernel), of_exec (by decide +kernel), of_exec (by decide +kernel)⟩

theorem witness_CommandsAgainstResults :
    (∃ t, exec .encode State.reset = .next t) ∧
    ((3 : BitVec 4).toNat ≤ 6 ∧ ResultCode.malformedIndex ≠ .illegalCommand ∧
      resultAllowed (3 : BitVec 4).toNat .malformedIndex = true) ∧
    (23 : BitVec 5).toNat < 24 ∧ (31 : BitVec 5).toNat = 31 ∧ (∃ t, exec .decode twoBad = .next t) ∧
    (∀ i, decode 0x00000016 ≠ .ok i) :=
  ⟨exec_next _ _, by decide, by decide, by decide, exec_next _ _, fun i h => by cases h⟩

theorem witness_PaddingLayout :
    (List.replicate 32 (0xFF : Byte)).length ≤ 32 ∧ (List.replicate 56 (0xFF : Byte)).length < 2 ^ 61 := by decide

/-- Flipping a bit of a state's stream changes one slot by a power of two (95_test_vectors.md 3.4: 282 becomes 346). -/
theorem test_flipStreamBit : ((seq srcSlots).flipStreamBit 15).slot 1 = 346 := by decide +kernel

/-- `CKSUM 256` on the source's entropy (95_test_vectors.md 2.1). -/
theorem test_full_digest : (after (exec (.cksum 256) src)).csbw.toList = (shaValue src.entropy).words ∧
    (after (exec (.cksum 256) src)).csbw.toList =
      [0xB6CB2F36, 0x085C1FF4, 0xA1949ECD, 0x96727ADE, 0xAA083BD1, 0x6C831712, 0x1D34B5AE, 0xD1C1420A] := by
  decide +kernel

end Sys2Proof.Tests
end

section
/-! PROOFS. The window of the block in the bus address space (00_scope.md R8, 20_memory.md R44). -/

namespace Sys2Proof.Machine

/-- Every `BASE` the platform can choose is on a word boundary (R8). -/
theorem base_mod_four : Config.base % 4 = 0 := by
  unfold Config.base
  omega

theorem windowOffset_eq_none_iff (addr : Nat) :
    windowOffset addr = none ↔ addr < Config.base ∨ Config.base + 256 ≤ addr := by
  simp only [windowOffset, ite_eq_right_iff, reduceCtorEq, imp_false, Config.window]
  omega

theorem windowOffset_base_add (off : BitVec 8) : windowOffset (Config.base + off.toNat) = some off := by
  have inWindow : Config.base ≤ Config.base + off.toNat ∧ Config.base + off.toNat < Config.base + Config.window :=
    ⟨Nat.le_add_right _ _, Nat.add_lt_add_left off.isLt _⟩
  rw [windowOffset, if_pos inWindow, Nat.add_sub_cancel_left, BitVec.ofNat_toNat, BitVec.setWidth_eq]

theorem windowOffset_eq_some_iff (addr : Nat) (off : BitVec 8) :
    windowOffset addr = some off ↔ addr = Config.base + off.toNat := by
  constructor
  · intro h
    have reached : ¬(addr < Config.base ∨ Config.base + 256 ≤ addr) := by
      simp [← windowOffset_eq_none_iff, h]
    -- An address in the window is `BASE` plus its distance `n < 256`, and eight bits hold that distance.
    obtain ⟨n, rfl⟩ := Nat.exists_eq_add_of_le (Nat.le_of_not_lt (not_or.mp reached).1)
    have fits : n < 2 ^ 8 := by omega
    have atBase := windowOffset_base_add (BitVec.ofNatLT n fits)
    rw [BitVec.toNat_ofNatLT, h, Option.some.injEq] at atBase
    rw [atBase, BitVec.toNat_ofNatLT]
  · rintro rfl
    exact windowOffset_base_add off

/-- Settles O16: the addresses of the window are `BASE` plus an offset, and `BASE` is on a word boundary. -/
theorem busAddressesOfTheWindow : Obligations.BusAddressesOfTheWindow := by
  refine ⟨windowOffset_eq_some_iff, fun addr off h => ?_, windowOffset_eq_none_iff⟩
  rw [(windowOffset_eq_some_iff addr off).mp h, Nat.add_mod, base_mod_four, Nat.zero_add, Nat.mod_mod]

end Sys2Proof.Machine
end

section
/-! PROOFS. The invariants of 10_state.md R28: the reset state meets them, every step keeps them, and so every reachable
state has them. -/

namespace Sys2Proof.Machine

theorem reset_inRange : State.reset.InRange := by decide

/-- R28 speaks of the registers and not of the bus. -/
theorem inRange_of_bus {s : State} (events : List BusEvent) (reply : Option Reply) (hs : s.InRange) :
    { s with pending := events, reply := reply }.InRange := hs

/-- R28 of a state whose `STATUS` a command has just written asks only for the lengths. -/
theorem inRange_mkStatus {u : State} (op : BitVec 4) (r : ResultCode) (eidx : BitVec 5) (he : u.elen.toNat ≤ 32)
    (hc : u.cslen.toNat ≤ 256) (hw : u.wcnt.toNat ≤ 24) : { u with status := mkStatus r op eidx }.InRange :=
  ⟨he, hc, hw, statusReserved_mkStatus r op eidx, by simpa using toNat_code_le r⟩

theorem exec_keeps_inRange {i : Instr} {s t : State} (hs : s.InRange) (h : exec i s = .next t) : t.InRange := by
  obtain ⟨he, hc, hw, -, -⟩ := hs
  rcases exec_ends i s with ⟨r, eidx, -, -, -, -, ha⟩ | ⟨u, ha, hk⟩
  · rw [ha] at h; cases h
    exact inRange_mkStatus _ r eidx he hc hw
  · rw [ha] at h; cases h
    refine inRange_mkStatus _ .ok 0 (hk.elen.elim ?_ id) (hk.cslen.elim ?_ id) (hk.wcnt.elim ?_ id)
    · exact fun e => e ▸ he
    · exact fun e => e ▸ hc
    · exact fun e => e ▸ hw

theorem runWord_keeps_inRange {w : Word} {s t : State} (hs : s.InRange) (h : runWord w s = .next t) : t.InRange := by
  rcases decode_cases w with ⟨i, hi⟩ | ⟨e, hi⟩
  · exact exec_keeps_inRange hs ((runWord_ok s hi).symm.trans h)
  · obtain ⟨he, hc, hw, -, -⟩ := hs
    rw [runWord_illegal s hi] at h; cases h
    exact inRange_mkStatus _ .illegalCommand 0 he hc hw

/-- A length register that the host's store changed is within its capacity, and `STATUS` is not the host's to change. -/
theorem storeReg_keeps_inRange {s t : State} {r : Reg} {v : Word} (hs : s.InRange) (h : storeReg s r v = some t) :
    t.InRange := by
  have hv : ¬storeReg s r v = none := by simp [h]
  rw [storeReg_eq_none_iff] at hv
  have bounded : ∀ (r' : Reg) (cap : Nat), (readReg s r').toNat ≤ cap → (r = r' → v.toNat ≤ cap) →
      (readReg t r').toNat ≤ cap := by
    intro r' cap hold hnew
    rw [(storeReg_spec h).1]
    split
    · exact hnew (Eq.symm ‹_›)
    · exact hold
  have hst : t.status = s.status := storeReg_status h
  obtain ⟨he, hc, hw, hz, hr⟩ := hs
  refine ⟨bounded .elen 32 he ?_, bounded .cslen 256 hc ?_, bounded .wcnt 24 hw ?_, hst ▸ hz, hst ▸ hr⟩ <;>
    (rintro rfl; simpa using hv)

theorem writeStorage_keeps_inRange {s t : State} {r : Reg} {v : Word} (hs : s.InRange)
    (h : writeStorage s r v = .next t) : t.InRange := by
  unfold writeStorage at h
  split at h <;> cases h
  · rename_i u hu
    exact inRange_of_bus u.pending _ (storeReg_keeps_inRange hs hu)
  · exact hs

theorem step_keeps_inRange {s t : State} (hs : s.InRange) (h : step s = .next t) : t.InRange := by
  rcases step_cases s with ⟨-, hst⟩ | ⟨ev, rest, -, ⟨off, size, -, hst⟩ | ⟨-, hst⟩ | ⟨off, size, v, -, -, hst⟩ |
    ⟨w, -, hst⟩ | ⟨r, v, -, -, hst⟩⟩ <;> rw [hst] at h
  · cases h; exact hs
  · cases h; exact inRange_of_bus rest _ hs
  · cases h; exact inRange_of_bus rest none reset_inRange
  · cases h; exact inRange_of_bus rest _ hs
  · exact runWord_keeps_inRange (inRange_of_bus rest _ hs) h
  · exact writeStorage_keeps_inRange (inRange_of_bus rest s.reply hs) h

/-- Settles O4: a case for each thing a step can do (`step_cases`). -/
theorem stepKeepsRegistersInRange : Obligations.StepKeepsRegistersInRange := fun _ _ => step_keeps_inRange

/-- Settles O3: the reset `STATUS` is that of a `NOP` that ended `OK`. -/
theorem resetMeetsInvariants : Obligations.ResetMeetsInvariants :=
  ⟨reset_inRange, .ok, 0, 0, by decide, rfl, rfl⟩

theorem reachable_inRange {t : State} (h : t.Reachable) : t.InRange := by
  obtain ⟨events, n, hrun⟩ := h
  exact run_keeps (fun _ _ => step_keeps_inRange) n _ t (inRange_of_bus events none reset_inRange) hrun

theorem entropy_congr {s t : State} (hl : t.elen = s.elen) (hw : t.entw = s.entw) : t.entropy = s.entropy := by
  have hent : t.ent = s.ent := funext fun j => by rw [State.ent, State.ent, hw]
  rw [State.entropy, State.entropy, hl, hent]

theorem checksum_congr {s t : State} (hl : t.cslen = s.cslen) (hw : t.csbw = s.csbw) : t.checksum = s.checksum := by
  have hcsb : t.csb = s.csb := funext fun i => by rw [State.csb, State.csb, hw]
  rw [State.checksum, State.checksum, hl, hcsb]

theorem indices_congr {s t : State} (hl : t.wcnt = s.wcnt) (hw : t.idx = s.idx) : t.indices = s.indices := by
  have hslot : t.slot = s.slot := funext fun g => by rw [State.slot, State.slot, hw]
  rw [State.indices, State.indices, hl, hslot]

/-- The registers that store what the host writes to them (R36, R43). -/
def storageRegs : List Reg :=
  [.elen, .cslen, .wcnt] ++ (List.finRange 8).map .entw ++ (List.finRange 8).map .csbw ++ (List.finRange 24).map .idx

theorem mem_storageRegs (r : Reg) : r ∈ storageRegs ↔ r ≠ .id ∧ r ≠ .cmd ∧ r ≠ .status := by
  cases r <;> simp [storageRegs]

/-- The host can load any register values with lengths within the capacities: it stores them one after the other. -/
theorem exists_reachable_readReg_eq (u : State) (he : u.elen.toNat ≤ 32) (hc : u.cslen.toNat ≤ 256)
    (hw : u.wcnt.toNat ≤ 24) : ∃ t : State, t.Reachable ∧ ∀ r ∈ storageRegs, readReg t r = readReg u r := by
  have accepted : ∀ r ∈ storageRegs, ∀ s : State, storeReg s r (readReg u r) ≠ none := by
    intro r hr s
    obtain ⟨hid, hcmd, hstatus⟩ := (mem_storageRegs r).1 hr
    rw [Ne, storeReg_eq_none_iff]
    rintro (h | h | h | ⟨rfl, h⟩ | ⟨rfl, h⟩ | ⟨rfl, h⟩)
    · exact hid h
    · exact hcmd h
    · exact hstatus h
    · exact absurd he (by simpa [readReg] using h)
    · exact absurd hc (by simpa [readReg] using h)
    · exact absurd hw (by simpa [readReg] using h)
  obtain ⟨t, hrun, hread⟩ := run_stores (readReg u) storageRegs
    { State.reset with pending := storageRegs.map fun r => .write r.offset 4 (readReg u r) } accepted rfl
  exact ⟨t, ⟨_, _, hrun⟩, fun r hr => by rw [hread, if_pos hr]⟩

/-- `exists_reachable_readReg_eq` of the fields of the state. -/
theorem exists_reachable_with_storage (u : State) (he : u.elen.toNat ≤ 32) (hc : u.cslen.toNat ≤ 256)
    (hw : u.wcnt.toNat ≤ 24) : ∃ t : State, t.Reachable ∧ t.elen = u.elen ∧ t.cslen = u.cslen ∧ t.wcnt = u.wcnt ∧
      t.entw = u.entw ∧ t.csbw = u.csbw ∧ t.idx = u.idx := by
  obtain ⟨t, ht, hread⟩ := exists_reachable_readReg_eq u he hc hw
  refine ⟨t, ht, hread .elen ?_, hread .cslen ?_, hread .wcnt ?_, Vector.ext fun k hk => hread (.entw ⟨k, hk⟩) ?_,
    Vector.ext fun k hk => hread (.csbw ⟨k, hk⟩) ?_, Vector.ext fun k hk => hread (.idx ⟨k, hk⟩) ?_⟩ <;>
  simp [mem_storageRegs]

/-- And of the values that the lengths cut out of the buffers. -/
theorem exists_reachable_with_values (u : State) (he : u.elen.toNat ≤ 32) (hc : u.cslen.toNat ≤ 256)
    (hw : u.wcnt.toNat ≤ 24) : ∃ t : State, t.Reachable ∧ t.entropy = u.entropy ∧ t.checksum = u.checksum ∧
      t.indices = u.indices := by
  obtain ⟨t, ht, hte, htc, htw, hent, hcsb, hidx⟩ := exists_reachable_with_storage u he hc hw
  exact ⟨t, ht, entropy_congr hte hent, checksum_congr htc hcsb, indices_congr htw hidx⟩

/-- For any hash, one bit that differs from the digest's first can stand as the checksum of the empty entropy. -/
theorem exists_reachable_foreign_checksum (H : HashFn) :
    ∃ t : State, t.Reachable ∧ t.checksum ≠ checksumBits H t.entropy t.checksum.length := by
  obtain ⟨b, hb⟩ : ∃ b, [b] ≠ checksumBits H [] 1 := by
    by_cases h : [true] = checksumBits H [] 1
    · exact ⟨false, by simp [← h]⟩
    · exact ⟨true, h⟩
  obtain ⟨t, ht, hent, hchk, -⟩ := exists_reachable_with_values (putChecksum [b] State.reset)
    (by simp) (by simp) (by simp)
  rw [checksum_putChecksum [b] _ (by simp)] at hchk
  have hempty : t.entropy = [] := hent
  exact ⟨t, ht, by simpa [hchk, hempty] using hb⟩

/-- One index can stand beside an empty entropy and an empty checksum, whose packing has none. -/
theorem exists_reachable_foreign_indices : ∃ t : State, t.Reachable ∧ t.indices ≠ pack t.entropy t.checksum := by
  obtain ⟨t, ht, hent, hchk, hidx⟩ := exists_reachable_with_values (putIndices [0] State.reset)
    (by simp) (by simp) (by simp)
  rw [indices_putIndices [0] _ (by simp) (by simp)] at hidx
  have hpack : pack t.entropy t.checksum = [] := by rw [hent, hchk]; rfl
  exact ⟨t, ht, by simp [hidx, hpack]⟩

/-- Settles O6: `run_keeps` for the invariants, and one store after the other for the values that stand together. -/
theorem reachableStatesInRange : Obligations.ReachableStatesInRange := by
  refine ⟨fun _ => reachable_inRange, ?_, exists_reachable_foreign_checksum hashPort, exists_reachable_foreign_indices⟩
  intro elen cslen wcnt entw csbw idx he hc hw
  exact exists_reachable_with_storage ⟨0, elen, cslen, wcnt, entw, csbw, idx, [], none⟩ he hc hw

end Sys2Proof.Machine
end

section
/-! PROOFS. Single steps and the register window: the offsets of 10_state.md R18, who writes `STATUS` (R22) and the idle
bus. -/

namespace Sys2Proof.Machine

/-- The register at an offset and the offset of a register are one relation (R18). -/
theorem regAt_eq_some_iff (off : BitVec 8) (r : Reg) : regAt off = some r ↔ r.offset = off :=
  ⟨offset_of_regAt off r, fun h => h ▸ regAt_offset r⟩

/-- Settles O10: both directions of the map, and the table's offsets by evaluation. -/
theorem registerWindowMap : Obligations.RegisterWindowMap :=
  ⟨regAt_eq_some_iff, regAt_eq_none_iff, rfl, rfl, rfl, rfl, rfl, rfl, by decide, by decide, by decide⟩

/-- Every word written to `CMD`, a command or not, leaves a `STATUS` whose opcode field is that of the word (R22). -/
theorem runWord_status {w : Word} {s t : State} (h : runWord w s = .next t) :
    ∃ r eidx, t.status = mkStatus r (fieldOp w) eidx := by
  rcases decode_cases w with ⟨i, hi⟩ | ⟨e, hi⟩
  · rw [runWord_ok s hi] at h
    obtain ⟨-, hop, -⟩ := fields_of_decode hi
    rcases exec_ends i s with ⟨r, eidx, -, -, -, -, ha⟩ | ⟨u, ha, -⟩
    · rw [ha] at h; cases h
      exact ⟨r, eidx, by rw [hop]⟩
    · rw [ha] at h; cases h
      exact ⟨.ok, 0, by rw [hop]⟩
  · rw [runWord_illegal s hi] at h; cases h
    exact ⟨.illegalCommand, 0, rfl⟩

/-- A write to a register other than `CMD`, refused or not, leaves `STATUS` (R22). -/
theorem writeStorage_keeps_status (s : State) (r : Reg) (v : Word) :
    ∃ t, writeStorage s r v = .next t ∧ t.status = s.status := by
  cases hst : storeReg s r v with
  | none => exact ⟨s.answerWrite .error, by simp only [writeStorage, hst], rfl⟩
  | some t => exact ⟨t.answerWrite .okay, by simp only [writeStorage, hst], (storeReg_status hst :)⟩

theorem step_cmd {s : State} {w : Word} {rest : List BusEvent} (h : s.pending = .write 0x04 4 w :: rest) :
    step s = runWord w ({ s with pending := rest }.answerWrite .okay) :=
  (step_event h).trans (busWrite_cmd _ w)

theorem step_cmd_status {s : State} {w : Word} {rest : List BusEvent} (h : s.pending = .write 0x04 4 w :: rest) :
    ∃ t, step s = .next t ∧ (statusLastop t.status).toNat = w.toNat % 16 ∧ statusReserved t.status = 0 := by
  obtain ⟨t, ht⟩ := runWord_next w ({ s with pending := rest }.answerWrite .okay)
  obtain ⟨r, eidx, hst⟩ := runWord_status ht
  refine ⟨t, (step_cmd h).trans ht, ?_, ?_⟩
  · rw [hst, statusLastop_mkStatus, toNat_fieldOp]
  · rw [hst, statusReserved_mkStatus]

theorem step_keeps_status {s : State} {ev : BusEvent} {rest : List BusEvent} (h : s.pending = ev :: rest)
    (hcmd : ∀ w, ev ≠ .write 0x04 4 w) (hreset : ev ≠ .reset) : ∃ t, step s = .next t ∧ t.status = s.status := by
  rcases step_cases s with ⟨hidle, -⟩ | ⟨ev', rest', hev, hcases⟩
  · simp [hidle] at h
  · obtain ⟨rfl, rfl⟩ : ev' = ev ∧ rest' = rest := by simpa [h, eq_comm] using hev
    rcases hcases with ⟨off, size, -, hst⟩ | ⟨hev, -⟩ | ⟨off, size, v, -, -, hst⟩ | ⟨w, hev, -⟩ | ⟨r, v, -, -, hst⟩
    · exact ⟨_, hst, rfl⟩
    · exact absurd hev hreset
    · exact ⟨_, hst, rfl⟩
    · exact absurd hev (hcmd w)
    · rw [hst]
      exact writeStorage_keeps_status _ r v

/-- Settles O15: a word written to `CMD` ends with `mkStatus`, and no other case of a step but reset writes `STATUS`. -/
theorem statusWrittenByCommandsAndReset : Obligations.StatusWrittenByCommandsAndReset := by
  intro s ev rest h
  refine ⟨?_, step_keeps_status h⟩
  rintro w rfl
  exact step_cmd_status h

/-- Settles O9, the model's choice for an idle bus. -/
theorem idleStepChangesNothing : Obligations.IdleStepChangesNothing := fun _ => step_idle

theorem entWords_nil : entWords [] = Vector.replicate 8 0 := by decide
theorem csbWords_nil : csbWords [] = Vector.replicate 8 0 := by decide
theorem idxWords_nil : idxWords [] = Vector.replicate 24 0 := by decide

/-- `CLEAR` leaves the reset registers but for `STATUS`, and the bus fields as they were (R32, R88). -/
theorem execClear_eq (s : State) :
    execClear s = .next { State.reset with status := 0x60, pending := s.pending, reply := s.reply } := by
  simp only [execClear, finish, putIndices, putChecksum, putEntropy, entWords_nil, csbWords_nil, idxWords_nil]
  rfl

theorem readReg_reset (r : Reg) : readReg State.reset r = if r = .id then 0x42503339 else 0 := by
  cases r <;> simp [readReg, State.reset, Config.idValue]

/-- Settles O1: the reset values register by register, and `execClear_eq` for `CLEAR`. -/
theorem resetRegisterValues : Obligations.ResetRegisterValues := by
  refine ⟨readReg_reset, fun s => ⟨_, execClear_eq s, fun r => ?_⟩⟩
  cases r with
  | status => rfl
  | _ => rw [if_neg (by simp)]; rfl

end Sys2Proof.Machine
end

section
/-! PROOFS. The words of a buffer and its bit stream (10_state.md R24, R25; 20_memory.md R38, R39; 41_bitpack.md
R72). -/

namespace Sys2Proof.Machine

/-- A flat map of pieces of one length `k`: position `i` is position `i mod k` of piece `i div k`. -/
theorem getElem_flatMap_const {α β : Type} {k : Nat} {f : α → List β} (hf : ∀ a, (f a).length = k)
    (l : List α) (i : Nat) (h : i < (l.flatMap f).length) (hp : i / k < l.length) (hm : i % k < (f l[i / k]).length) :
    (l.flatMap f)[i] = (f l[i / k])[i % k] := by
  have hgroups : groups k l.length (l.flatMap f) = l.map f := groups_flatMap k f hf l
  have hpiece : ((l.flatMap f).drop (k * (i / k))).take k = f l[i / k] := by
    rw [← getElem_groups k l.length _ (i / k) (by simpa using hp)]
    simp only [hgroups, List.getElem_map]
  simp only [← hpiece, List.getElem_take, List.getElem_drop, Nat.div_add_mod]

/-- Bit `i` of the stream of eight words is bit `31 - i mod 32` of word `i div 32` (R38, R39). -/
theorem getElem_wordStream (ws : Vector Word 8) (i : Nat)
    (h : i < (ws.toList.flatMap fun w => bitsOf 32 w.toNat).length) (hi : i / 32 < 8) :
    (ws.toList.flatMap fun w => bitsOf 32 w.toNat)[i] = ws[i / 32].getLsbD (31 - i % 32) := by
  rw [getElem_flatMap_const (k := 32) (fun _ => length_bitsOf 32 _) _ i h (by simpa using hi)
    (by simp; omega), getElem_bitsOf, Vector.getElem_toList, BitVec.getLsbD]

theorem length_wordStream (ws : Vector Word 8) : (ws.toList.flatMap fun w => bitsOf 32 w.toNat).length = 256 := by
  rw [length_flatMap_const 32 _ (fun _ => length_bitsOf 32 _), Vector.length_toList]

/-- Bit `i` of the stream of a byte sequence is bit `7 - i mod 8` of byte `i div 8` (R72). -/
theorem getElem_bits (e : List Byte) (i : Nat) (h : i < (bits e).length) (hi : i / 8 < e.length) :
    (bits e)[i] = e[i / 8].getLsbD (7 - i % 8) := by
  have hb := getElem_flatMap_const (k := 8) (fun b : Byte => length_bitsOf 8 b.toNat) e i h hi
    (by simp; omega)
  rw [getElem_bitsOf] at hb
  exact hb

/-- Bit `7 - b` of a byte of the entropy buffer, as a bit of its word (R24). -/
theorem getLsbD_ent (s : State) (j b : Nat) (hj : j / 4 < 8) (hb : b < 8) :
    (s.ent j).getLsbD (7 - b) = s.entw[j / 4].getLsbD (31 - 8 * (j % 4) - b) := by
  have hlt : 7 - b < 8 := by omega
  rw [State.ent, Vector.getElem?_eq_getElem hj, Option.getD_some, BitVec.getLsbD_extractLsb', decide_eq_true hlt,
    Bool.true_and]
  congr 1
  omega

theorem entw_stream (s : State) :
    s.entw.toList.flatMap (fun w => bitsOf 32 w.toNat) = bits ((List.range 32).map s.ent) := by
  refine List.ext_getElem (by simp) fun i hi _ => ?_
  have hlt : i < 256 := length_wordStream s.entw ▸ hi
  rw [getElem_wordStream _ i hi (by omega), getElem_bits _ i _ (by simp; omega), List.getElem_map, List.getElem_range,
    getLsbD_ent s (i / 8) (i % 8) (by omega) (by omega)]
  have hword : i / 8 / 4 = i / 32 := by omega
  have hbit : 31 - 8 * (i / 8 % 4) - i % 8 = 31 - i % 32 := by omega
  simp only [hword, hbit]

theorem csbw_stream (s : State) :
    s.csbw.toList.flatMap (fun w => bitsOf 32 w.toNat) = (List.range 256).map s.csb := by
  refine List.ext_getElem (by simp) fun i hi _ => ?_
  have hlt : i < 256 := length_wordStream s.csbw ▸ hi
  have hword : i / 32 < 8 := by omega
  rw [getElem_wordStream _ i hi hword, List.getElem_map, List.getElem_range, State.csb,
    Vector.getElem?_eq_getElem hword, Option.getD_some]

/-- Settles O24: both streams bit by bit. -/
theorem bufferWordsAreTheBitStream : Obligations.BufferWordsAreTheBitStream := fun s =>
  ⟨entw_stream s, csbw_stream s⟩

end Sys2Proof.Machine
end

section
/-! PROOFS. What each command reads and writes (10_state.md R27, R31, R33): its frame, the zeros beyond the lengths it
writes, and that its outcome is a function of what it reads. -/

namespace Sys2Proof.Machine

/-- What a `CKSUM` that ended `OK` was given and left. -/
theorem cksumWith_result_ok {H : HashFn} {n : Nat} {s t : State} (h : cksumWith H n s = .next t)
    (hs : statusResult t.status = 0) :
    n ≤ 256 ∧ t = { putChecksum (checksumBits H s.entropy n) s with status := mkStatus .ok 1 0 } := by
  by_cases hn : n ≤ 256
  · rw [cksumWith_ok s hn] at h; cases h; exact ⟨hn, rfl⟩
  · rw [cksumWith_badParameter s (by omega)] at h; cases h; simp [ResultCode.code] at hs

/-- What an `ENCODE` that ended `OK` was given and left. -/
theorem encodeWith_result_ok {H : HashFn} {s t : State} (h : encodeWith H s = .next t)
    (hs : statusResult t.status = 0) :
    s.elen.toNat ∈ Config.entLengths ∧
      t = { putIndices (pack s.entropy (s.ownChecksum H)) (putChecksum (s.ownChecksum H) s) with
              status := mkStatus .ok 4 0 } := by
  by_cases hl : s.elen.toNat ∈ Config.entLengths
  · rw [encodeWith_ok H hl] at h; cases h; exact ⟨hl, rfl⟩
  · rw [encodeWith_invalidLength H hl] at h; cases h; simp [ResultCode.code] at hs

/-! ### The frame -/

theorem readReg_status_update (s : State) (v : Word) {r : Reg} (h : r ≠ .status) :
    readReg { s with status := v } r = readReg s r := by
  cases r with
  | status => exact absurd rfl h
  | _ => rfl

theorem writes_status (i : Instr) : writes i .status = true := by cases i <;> rfl

theorem exec_frame {i : Instr} {s t : State} {r : Reg} (h : exec i s = .next t) (hr : writes i r = false) :
    readReg t r = readReg s r := by
  have hns : r ≠ .status := by rintro rfl; simp [writes_status] at hr
  rcases exec_ends i s with ⟨res, eidx, -, -, -, -, ha⟩ | ⟨u, ha, hk⟩
  · rw [ha] at h; cases h
    exact readReg_status_update s _ hns
  · rw [ha] at h; cases h
    exact (readReg_status_update u _ hns).trans (hk.frame r hr)

/-- Settles O41: by the two ways a command ends (`exec_ends`). -/
theorem commandWritesOnlyItsRegisters : Obligations.CommandWritesOnlyItsRegisters := by
  intro i s
  obtain ⟨t, ht⟩ := exec_next i s
  exact ⟨t, ht, exec_sameBus ht, fun _ => exec_frame ht⟩

/-! ### Zeros beyond a length -/

theorem ent_putEntropy_beyond {e : List Byte} (s : State) (he : e.length ≤ 32) {j : Nat}
    (hj : (putEntropy e s).elen.toNat ≤ j) (hlt : j < 32) : (putEntropy e s).ent j = 0 := by
  rw [putEntropy_elen, toNat_ofNat_of_lt he (by omega)] at hj
  rw [ent_putEntropy e s j hlt, List.getD_eq_default _ _ hj]

theorem csb_putChecksum_beyond {c : List Bool} (s : State) (hc : c.length ≤ 256) {k : Nat}
    (hk : (putChecksum c s).cslen.toNat ≤ k) (hlt : k < 256) : (putChecksum c s).csb k = false := by
  rw [putChecksum_cslen, toNat_ofNat_of_lt hc (by omega)] at hk
  rw [csb_putChecksum c s k hlt, List.getD_eq_default _ _ hk]

theorem slot_putIndices_beyond {w : List Nat} (s : State) (hw : w.length ≤ 24) {g : Nat}
    (hg : (putIndices w s).wcnt.toNat ≤ g) (hlt : g < 24) : (putIndices w s).slot g = 0 := by
  rw [putIndices_wcnt, toNat_ofNat_of_lt hw (by omega)] at hg
  rw [slot_putIndices w s g hlt, List.getD_eq_default _ _ hg, BitVec.ofNat_eq_ofNat]

/-- The indices of a valid entropy with its own checksum fit their buffer (R82). -/
theorem length_pack_own_le {H : HashFn} {s : State} (h : s.elen.toNat ∈ Config.entLengths) :
    (pack s.entropy (s.ownChecksum H)).length ≤ 24 := by
  have := mem_entLengths.1 h
  simp [checksumLength]; omega

theorem length_decodedEntropy_le {s : State} (h : s.wcnt.toNat ∈ Config.wordCounts) :
    s.decodedEntropy.length ≤ 32 := by
  have := mem_wordCounts.1 h
  rw [length_decodedEntropy, entropyBits]; omega

theorem length_decodedChecksum_le {s : State} (h : s.wcnt.toNat ∈ Config.wordCounts) :
    s.decodedChecksum.length ≤ 256 := by
  have := mem_wordCounts.1 h
  rw [length_decodedChecksum, entropyBits]; omega

/-- Settles O26: command by command, from what each left when it ended `OK`. -/
theorem writtenBuffersAreZeroBeyondTheirLength : Obligations.WrittenBuffersAreZeroBeyondTheirLength := by
  intro i s t h hs
  cases i with
  | nop => exact ⟨nofun, nofun, nofun⟩
  | cksum n =>
    obtain ⟨-, rfl⟩ := cksumWith_result_ok (H := hashPort) h hs
    exact ⟨nofun, fun _ _ => csb_putChecksum_beyond s (by simp), nofun⟩
  | pack =>
    obtain ⟨-, hfits, rfl⟩ := execPack_result_ok h hs
    exact ⟨nofun, nofun, fun _ _ => slot_putIndices_beyond s (by simpa [State.packBits] using hfits)⟩
  | unpack ebits =>
    obtain ⟨-, -, -, he, hc, rfl⟩ := execUnpack_result_ok h hs
    exact ⟨fun _ _ => ent_putEntropy_beyond s (by simp; omega),
      fun _ _ => csb_putChecksum_beyond (putEntropy (unpack s.indices ebits).1 s)
        (by simpa [State.indexBits] using hc), nofun⟩
  | encode =>
    obtain ⟨hl, rfl⟩ := encodeWith_result_ok (H := hashPort) h hs
    exact ⟨nofun, fun _ _ => csb_putChecksum_beyond s (by simp),
      fun _ _ => slot_putIndices_beyond (putChecksum (s.ownChecksum hashPort) s) (length_pack_own_le hl)⟩
  | decode =>
    obtain ⟨hl, -, -, rfl⟩ := decodeWith_result_ok (H := hashPort) h hs
    exact ⟨fun _ _ => ent_putEntropy_beyond s (length_decodedEntropy_le hl),
      fun _ _ => csb_putChecksum_beyond (putEntropy s.decodedEntropy s) (length_decodedChecksum_le hl), nofun⟩
  | clear =>
    cases h
    exact ⟨fun _ _ => ent_putEntropy_beyond s (by simp), fun _ _ => csb_putChecksum_beyond (putEntropy [] s) (by simp),
      fun _ _ => slot_putIndices_beyond (putChecksum [] (putEntropy [] s)) (by simp)⟩

/-! ### Noninterference -/

/-- Two states agree on the buffers that a command writes, with their lengths: the last column of R33 but `STATUS`. -/
structure AgreeOnWrites (i : Instr) (u u' : State) : Prop where
  entropy : writes i .elen = true → u.elen = u'.elen ∧ u.entw = u'.entw
  checksum : writes i .cslen = true → u.cslen = u'.cslen ∧ u.csbw = u'.csbw
  indices : writes i .wcnt = true → u.wcnt = u'.wcnt ∧ u.idx = u'.idx

/-- A command writes a buffer together with its length (R27). -/
theorem writes_entw (i : Instr) (k : Fin 8) : writes i (.entw k) = writes i .elen := by cases i <;> rfl
theorem writes_csbw (i : Instr) (k : Fin 8) : writes i (.csbw k) = writes i .cslen := by cases i <;> rfl
theorem writes_idx (i : Instr) (k : Fin 24) : writes i (.idx k) = writes i .wcnt := by cases i <;> rfl

theorem AgreeOnWrites.readReg_eq {i : Instr} {u u' : State} (h : AgreeOnWrites i u u') {r : Reg} (hs : r ≠ .status)
    (hr : writes i r = true) : readReg u r = readReg u' r := by
  cases r with
  | id => rfl
  | cmd => rfl
  | status => exact absurd rfl hs
  | elen => exact (h.entropy hr).1
  | cslen => exact (h.checksum hr).1
  | wcnt => exact (h.indices hr).1
  | entw k => simp only [readReg, (h.entropy (writes_entw i k ▸ hr)).2]
  | csbw k => simp only [readReg, (h.checksum (writes_csbw i k ▸ hr)).2]
  | idx k => simp only [readReg, (h.indices (writes_idx i k ▸ hr)).2]

/-- Two runs of a command end alike: both raise the same result with the same index, or both end `OK` with the same
values in what it writes. -/
def EndAlike (i : Instr) (s s' : State) (a a' : Answer) : Prop :=
  (∃ r eidx, r ≠ .ok ∧ a = raise i.op r eidx s ∧ a' = raise i.op r eidx s') ∨
  (∃ u u', a = finish i.op u ∧ a' = finish i.op u' ∧ AgreeOnWrites i u u')

theorem cksum_endAlike (H : HashFn) (n : Nat) {s s' : State} (h : s.entropy = s'.entropy) :
    EndAlike (.cksum n) s s' (cksumWith H n s) (cksumWith H n s') := by
  by_cases hn : n ≤ 256
  · rw [cksumWith_ok s hn, cksumWith_ok s' hn, h]
    exact .inr ⟨_, _, rfl, rfl, nofun, fun _ => ⟨rfl, rfl⟩, nofun⟩
  · rw [cksumWith_badParameter s (by omega), cksumWith_badParameter s' (by omega)]
    exact .inl ⟨.badParameter, 0, by decide, rfl, rfl⟩

theorem pack_endAlike {s s' : State} (he : s.entropy = s'.entropy) (hc : s.checksum = s'.checksum) :
    EndAlike .pack s s' (execPack s) (execPack s') := by
  have hT : s.packBits = s'.packBits := by
    rw [State.packBits, State.packBits, elen_eq_of_entropy_eq he, cslen_eq_of_checksum_eq hc]
  by_cases hp : s.packBits % 11 ≠ 0 ∨ 24 < s.packBits / 11
  · rw [execPack_badParameter hp, execPack_badParameter (hT ▸ hp)]
    exact .inl ⟨.badParameter, 0, by decide, rfl, rfl⟩
  · rw [execPack_ok (s := s) (by omega) (by omega), execPack_ok (s := s') (by omega) (by omega), he, hc]
    exact .inr ⟨_, _, rfl, rfl, nofun, nofun, fun _ => ⟨rfl, rfl⟩⟩

theorem firstBadIndex_congr {s s' : State} (h : s.indices = s'.indices) : s.firstBadIndex = s'.firstBadIndex := by
  rw [State.firstBadIndex, State.firstBadIndex, h]

theorem unpack_endAlike (ebits : Nat) {s s' : State} (h : s.indices = s'.indices) :
    EndAlike (.unpack ebits) s s' (execUnpack ebits s) (execUnpack ebits s') := by
  have hfirst := firstBadIndex_congr h
  have hT : s.indexBits = s'.indexBits := by rw [State.indexBits, State.indexBits, wcnt_eq_of_indices_eq h]
  cases hb : s.firstBadIndex with
  | some g =>
    rw [execUnpack_badIndex ebits hb, execUnpack_badIndex ebits (hfirst ▸ hb)]
    exact .inl ⟨.malformedIndex, _, by decide, rfl, rfl⟩
  | none =>
    have hb' : s'.firstBadIndex = none := hfirst ▸ hb
    by_cases h8 : ebits % 8 = 0
    · by_cases hp : s.indexBits < ebits ∨ 256 < ebits ∨ 256 < s.indexBits - ebits
      · rw [execUnpack_badParameter hb h8 hp, execUnpack_badParameter hb' h8 (hT ▸ hp)]
        exact .inl ⟨.badParameter, 0, by decide, rfl, rfl⟩
      · rw [execUnpack_ok hb h8 (by omega) (by omega) (by omega),
          execUnpack_ok hb' h8 (by omega) (by omega) (by omega), h]
        exact .inr ⟨_, _, rfl, rfl, fun _ => ⟨rfl, rfl⟩, fun _ => ⟨rfl, rfl⟩, nofun⟩
    · rw [execUnpack_badMultiple hb h8, execUnpack_badMultiple hb' h8]
      exact .inl ⟨.malformedIndex, 31, by decide, rfl, rfl⟩

theorem encode_endAlike (H : HashFn) {s s' : State} (h : s.entropy = s'.entropy) :
    EndAlike .encode s s' (encodeWith H s) (encodeWith H s') := by
  have hlen : s.elen = s'.elen := elen_eq_of_entropy_eq h
  have hown : s.ownChecksum H = s'.ownChecksum H := by rw [State.ownChecksum, State.ownChecksum, h, hlen]
  by_cases hl : s.elen.toNat ∈ Config.entLengths
  · rw [encodeWith_ok H hl, encodeWith_ok H (hlen ▸ hl), h, hown]
    exact .inr ⟨_, _, rfl, rfl, nofun, fun _ => ⟨rfl, rfl⟩, fun _ => ⟨rfl, rfl⟩⟩
  · rw [encodeWith_invalidLength H hl, encodeWith_invalidLength H (hlen ▸ hl)]
    exact .inl ⟨.invalidEntropyLength, 0, by decide, rfl, rfl⟩

theorem decode_endAlike (H : HashFn) {s s' : State} (h : s.indices = s'.indices) :
    EndAlike .decode s s' (decodeWith H s) (decodeWith H s') := by
  have hfirst := firstBadIndex_congr h
  have hcount : s.wcnt = s'.wcnt := wcnt_eq_of_indices_eq h
  have hent : s.decodedEntropy = s'.decodedEntropy := by rw [State.decodedEntropy, State.decodedEntropy, h, hcount]
  have hchk : s.decodedChecksum = s'.decodedChecksum := by rw [State.decodedChecksum, State.decodedChecksum, h, hcount]
  have hexp : s.expectedChecksum H = s'.expectedChecksum H := by
    rw [State.expectedChecksum, State.expectedChecksum, hent, hcount]
  by_cases hl : s.wcnt.toNat ∈ Config.wordCounts
  · have hl' : s'.wcnt.toNat ∈ Config.wordCounts := hcount ▸ hl
    cases hb : s.firstBadIndex with
    | some g =>
      rw [decodeWith_badIndex H hl hb, decodeWith_badIndex H hl' (hfirst ▸ hb)]
      exact .inl ⟨.malformedIndex, _, by decide, rfl, rfl⟩
    | none =>
      have hb' : s'.firstBadIndex = none := hfirst ▸ hb
      by_cases hc : s.decodedChecksum = s.expectedChecksum H
      · rw [decodeWith_ok hl hb hc, decodeWith_ok hl' hb' (hchk ▸ hexp ▸ hc), hent, hchk]
        exact .inr ⟨_, _, rfl, rfl, fun _ => ⟨rfl, rfl⟩, fun _ => ⟨rfl, rfl⟩, nofun⟩
      · rw [decodeWith_invalidChecksum hl hb hc, decodeWith_invalidChecksum hl' hb' (hchk ▸ hexp ▸ hc)]
        exact .inl ⟨.invalidChecksum, 0, by decide, rfl, rfl⟩
  · rw [decodeWith_invalidCount H hl, decodeWith_invalidCount H (hcount ▸ hl)]
    exact .inl ⟨.invalidWordCount, 0, by decide, rfl, rfl⟩

/-- From two states that agree on what a command reads, it ends alike. -/
theorem exec_endAlike (i : Instr) {s s' : State} (h : SameReads i s s') : EndAlike i s s' (exec i s) (exec i s') := by
  cases i with
  | nop => exact .inr ⟨s, s', rfl, rfl, nofun, nofun, nofun⟩
  | cksum n => exact cksum_endAlike hashPort n h
  | pack =>
    obtain ⟨he, hc⟩ := h
    exact pack_endAlike he hc
  | unpack ebits => exact unpack_endAlike ebits h
  | encode => exact encode_endAlike hashPort h
  | decode => exact decode_endAlike hashPort h
  | clear => exact .inr ⟨_, _, rfl, rfl, fun _ => ⟨rfl, rfl⟩, fun _ => ⟨rfl, rfl⟩, fun _ => ⟨rfl, rfl⟩⟩

/-- Settles O42: two runs that end alike leave the same `STATUS` and, on `OK`, the same values. -/
theorem commandReadsOnlyItsOperands : Obligations.CommandReadsOnlyItsOperands := by
  intro i s s' t t' hsame h h'
  rcases exec_endAlike i hsame with ⟨res, eidx, hres, ha, ha'⟩ | ⟨u, u', ha, ha', hagree⟩
  · rw [ha] at h; cases h
    rw [ha'] at h'; cases h'
    have hcode : statusResult (mkStatus res i.op eidx) ≠ 0 := by
      rw [statusResult_mkStatus]
      exact mt (code_eq_zero_iff res).1 hres
    exact ⟨rfl, fun hok => absurd hok hcode⟩
  · rw [ha] at h; cases h
    rw [ha'] at h'; cases h'
    refine ⟨rfl, fun _ r hr => ?_⟩
    by_cases hs : r = .status
    · subst hs; rfl
    · rw [readReg_status_update u _ hs, readReg_status_update u' _ hs]
      exact hagree.readReg_eq hs hr

end Sys2Proof.Machine
end

section
/-! PROOFS. The bus transactions: what a read returns, which accesses are refused and what an accepted write leaves
(20_memory.md R35, R36, R43, R45, R52, R54). -/

namespace Sys2Proof.Machine

/-- Settles O8: the write reaches `CMD`, and a word that decodes runs its command. -/
theorem stepRunsDecodedCommand : Obligations.StepRunsDecodedCommand := by
  intro s rest w i h hdec
  rw [step_cmd h, runWord_ok _ hdec, State.answerWrite]

theorem regAt_eq_none_iff_forall (off : BitVec 8) : regAt off = none ↔ ∀ r : Reg, r.offset ≠ off := by
  simp only [Option.eq_none_iff_forall_ne_some, ne_eq, regAt_eq_some_iff]

theorem step_read {s : State} {rest : List BusEvent} {off : BitVec 8} {size : Nat}
    (h : s.pending = .read off size :: rest) :
    step s = .next { s with
      pending := rest, reply := some (.read (busRead s off size).1 (busRead s off size).2) } :=
  step_event h

/-- Settles O11: a read finds the one register at its offset, or none. -/
theorem busReadReturnsRegister : Obligations.BusReadReturnsRegister := by
  intro s rest off size h
  refine ⟨?_, fun hmiss => ?_, rfl, rfl⟩
  · rintro r rfl rfl
    rw [step_read h, busRead_reg]
  · rw [← regAt_eq_none_iff_forall] at hmiss
    rw [step_read h, busRead_refused s hmiss]

theorem readRefused_iff (off : BitVec 8) (size : Nat) : ReadRefused off size ↔ size ≠ 4 ∨ regAt off = none :=
  or_congr_right (regAt_eq_none_iff off).symm

theorem not_readRefused_offset (r : Reg) : ¬ReadRefused r.offset 4 := by simp [readRefused_iff]

/-- An access is refused for its size or its offset, or it is a four-byte access of a register (R52 (a), (b)). -/
theorem readRefused_or_exists_reg (off : BitVec 8) (size : Nat) :
    ReadRefused off size ∨ ∃ r : Reg, off = r.offset ∧ size = 4 := by
  by_cases hmiss : size ≠ 4 ∨ regAt off = none
  · exact .inl ((readRefused_iff off size).2 hmiss)
  · obtain ⟨hsize, hreg⟩ := not_or.1 hmiss
    obtain ⟨r, hr⟩ := Option.ne_none_iff_exists'.1 hreg
    exact .inr ⟨r, (offset_of_regAt off r hr).symm, not_not.1 hsize⟩

theorem busRead_response (s : State) (off : BitVec 8) (size : Nat) :
    (busRead s off size).1 = if ReadRefused off size then .error else .okay := by
  rcases readRefused_or_exists_reg off size with href | ⟨r, rfl, rfl⟩
  · rw [if_pos href, busRead_refused s ((readRefused_iff off size).1 href)]
  · rw [if_neg (not_readRefused_offset r), busRead_reg]

theorem toNat_offset_eq_iff (r q : Reg) : r.offset.toNat = q.offset.toNat ↔ r = q :=
  ⟨fun h => offset_injective (BitVec.eq_of_toNat_eq h), fun h => h ▸ rfl⟩

/-- At a register's offset the cases (c) and (d) of R52 are left. -/
theorem writeRefused_offset_iff (r : Reg) (v : Word) :
    WriteRefused r.offset 4 v ↔ r = .id ∨ r = .status ∨ (r = .elen ∧ 32 < v.toNat) ∨
      (r = .cslen ∧ 256 < v.toNat) ∨ (r = .wcnt ∧ 24 < v.toNat) := by
  simp only [← toNat_offset_eq_iff]
  exact or_iff_right (not_readRefused_offset r)

theorem not_writeRefused_cmd (v : Word) : ¬WriteRefused Reg.cmd.offset 4 v := by simp [writeRefused_offset_iff]

/-- The refused writes to a register other than `CMD` are its refused stores. -/
theorem writeRefused_iff_storeReg_eq_none (s : State) {r : Reg} (v : Word) (hr : r ≠ .cmd) :
    WriteRefused r.offset 4 v ↔ storeReg s r v = none := by
  simp only [writeRefused_offset_iff, storeReg_eq_none_iff, hr, false_or]

/-- What a write answers: by R52 `ERROR`, with no register changed, or `OKAY`. -/
theorem busWrite_response (s : State) (off : BitVec 8) (size : Nat) (v : Word) :
    ∃ t, busWrite s off size v = .next t ∧
      t.reply = some (.write (if WriteRefused off size v then .error else .okay)) ∧
      (WriteRefused off size v → SameRegisters s t) := by
  rcases readRefused_or_exists_reg off size with href | ⟨r, rfl, rfl⟩
  · rw [if_pos (.inl href)]
    exact ⟨_, busWrite_refused s v ((readRefused_iff off size).1 href), rfl, fun _ => readReg_answerWrite s .error⟩
  by_cases hr : r = .cmd
  · subst hr
    have hok := not_writeRefused_cmd v
    obtain ⟨t, ht⟩ := runWord_next v (s.answerWrite .okay)
    rw [if_neg hok]
    exact ⟨t, (busWrite_cmd s v).trans ht, (runWord_sameBus ht).2, fun href => absurd href hok⟩
  · have hiff := writeRefused_iff_storeReg_eq_none s v hr
    rw [busWrite_reg s v hr, writeStorage]
    cases hst : storeReg s r v with
    | none =>
      rw [if_pos (hiff.2 hst)]
      exact ⟨_, rfl, rfl, fun _ => readReg_answerWrite s .error⟩
    | some t =>
      have hok : ¬WriteRefused r.offset 4 v := by simp [hiff, hst]
      rw [if_neg hok]
      exact ⟨_, rfl, rfl, fun href => absurd href hok⟩

/-- Registers do not see the bus fields. -/
theorem readReg_of_bus (s : State) (events : List BusEvent) (reply : Option Reply) (r : Reg) :
    readReg { s with pending := events, reply := reply } r = readReg s r :=
  readReg_congr rfl rfl rfl rfl rfl rfl rfl r

theorem step_write {s : State} {rest : List BusEvent} {off : BitVec 8} {size : Nat} {v : Word}
    (h : s.pending = .write off size v :: rest) :
    ∃ t, step s = .next t ∧ t.reply = some (.write (if WriteRefused off size v then .error else .okay)) ∧
      (WriteRefused off size v → SameRegisters s t) := by
  obtain ⟨t, ht, hreply, hsame⟩ := busWrite_response { s with pending := rest } off size v
  exact ⟨t, (step_event h).trans ht, hreply, fun href r =>
    (hsame href r).trans (readReg_of_bus s rest s.reply r)⟩

/-- Settles O12, for reads by `busRead_response` and for writes by `busWrite_response`. -/
theorem busErrorCases : Obligations.BusErrorCases := by
  refine ⟨fun s rest off size h => ?_, fun s rest off size v h => step_write h⟩
  refine ⟨_, (busRead s off size).2, step_read h, readReg_of_bus s _ _, ?_⟩
  rw [busRead_response]

/-- A write that is not refused, to a register other than `CMD`, is one accepted store (R36). -/
theorem step_write_reg {s : State} {rest : List BusEvent} {r : Reg} {v : Word}
    (h : s.pending = .write r.offset 4 v :: rest) (hr : r ≠ .cmd) (hok : ¬WriteRefused r.offset 4 v) :
    ∃ t, step s = .next t ∧ t.pending = rest ∧ t.reply = some (.write .okay) ∧
      ∀ r', readReg t r' = if r' = r then v else readReg s r' := by
  rw [writeRefused_iff_storeReg_eq_none { s with pending := rest } v hr] at hok
  obtain ⟨u, hu⟩ := Option.ne_none_iff_exists'.1 hok
  obtain ⟨hread, hpending, -⟩ := storeReg_spec hu
  refine ⟨_, step_store h hu, hpending, rfl, fun r' => ?_⟩
  rw [readReg_answerWrite, hread, readReg_of_bus s rest s.reply]

/-- Settles O13: the store reads back as written and leaves every other register. -/
theorem hostWriteChangesOneRegister : Obligations.HostWriteChangesOneRegister := fun _ _ _ _ => step_write_reg

/-- Settles O14: each access by the rule for its kind, with its refusal or its data evaluated. -/
theorem accessExamplesFromReset : Obligations.AccessExamplesFromReset := by
  refine ⟨?_, fun p hp => ?_, ?_, fun p hp => ?_⟩
  · obtain ⟨t, ht, -, hreply, hread⟩ :=
      step_write_reg (s := { State.reset with pending := [.write 0x0C 4 32] }) (r := .elen) rfl (by decide) (by decide)
    obtain ⟨u, hu, hreply', hsame⟩ := step_write (s := { t with pending := [.write 0x0C 4 33] }) rfl
    have helen : t.elen = 32 := hread .elen
    exact ⟨t, u, ht, hreply, helen, hu, hreply', (hsame (by decide) .elen).trans helen⟩
  · have hresp : (if WriteRefused p.1 4 p.2.1 then .error else .okay) = p.2.2 := by revert p; decide
    obtain ⟨t, ht, hreply, -⟩ := step_write (s := { State.reset with pending := [.write p.1 4 p.2.1] }) rfl
    exact ⟨t, ht, hresp ▸ hreply⟩
  · obtain ⟨t, ht, -, hreply, hread⟩ :=
      step_write_reg (s := { State.reset with pending := [.write 0x60 4 0xFFFFFFFF] }) (r := .idx 0) rfl (by decide)
        (by decide)
    exact ⟨t, ht, hreply, hread (.idx 0)⟩
  · have hpair : busRead State.reset p.1 4 = p.2 := by revert p; decide
    exact ⟨_, step_read rfl, by rw [← hpair]; rfl⟩

end Sys2Proof.Machine
end

section
/-! PROOFS. A short checksum as the top bits of the first checksum word (20_memory.md R39). -/

namespace Sys2Proof.Machine

/-- A leading part of a bit sequence spells the leading digits of its number. -/
theorem val_take (l : List Bool) (n : Nat) : val (l.take n) = val l / 2 ^ (l.length - n) := by
  have hval := val_append (l.take n) (l.drop n)
  have htail := val_lt (l.drop n)
  rw [List.take_append_drop] at hval
  rw [List.length_drop] at hval htail
  rw [hval, Nat.mul_comm, Nat.mul_add_div (Nat.two_pow_pos _), Nat.div_eq_of_lt htail, Nat.add_zero]

theorem checksum_eq_take_first_word {s : State} (hn : s.cslen.toNat ≤ 32) :
    s.checksum = (bitsOf 32 (readReg s (.csbw 0)).toNat).take s.cslen.toNat := by
  refine List.ext_getElem (by simp [hn]) fun i hi _ => ?_
  have hlt : i < 32 := by rw [length_checksum] at hi; omega
  have hword : i / 32 = 0 := Nat.div_eq_of_lt hlt
  have hbit : i % 32 = i := Nat.mod_eq_of_lt hlt
  rw [getElem_checksum, List.getElem_take, getElem_bitsOf, State.csb, hword, hbit]
  rfl

/-- Settles O25: the checksum is the first `CSLEN` bits of `CSBW0`, read as a number. -/
theorem shortChecksumIsTopOfFirstWord : Obligations.ShortChecksumIsTopOfFirstWord := by
  intro s hn
  rw [checksum_eq_take_first_word hn, val_take, length_bitsOf, val_bitsOf, Nat.mod_eq_of_lt (BitVec.isLt _)]

end Sys2Proof.Machine
end

section
/-! PROOFS. The command word (30_encoding.md): a word is a command exactly when its three fields, as numbers, are those
of the command, and so exactly when it is the command word of a well-formed command. The rows of R58, the legal words of
R59 and the decoder's cases of R65 are read off these two equivalences. -/

namespace Sys2Proof.Machine

/-! ### Decode and encode agree -/

/-- The decoder on the three fields as numbers, both ways (R56, R65). -/
theorem decode_eq_ok_iff {w : Word} {i : Instr} :
    decode w = .ok i ↔ w.toNat / 8192 = 0 ∧ w.toNat % 16 = i.op.toNat ∧ w.toNat / 16 % 512 = i.imm := by
  constructor
  · intro h
    obtain ⟨hzero, hop, himm⟩ := fields_of_decode h
    rw [← toNat_fieldZero, ← toNat_fieldOp, ← toNat_fieldImm, hzero, hop, himm]
    exact ⟨rfl, rfl, rfl⟩
  · rintro ⟨hzero, hop, himm⟩
    rw [decode_num, if_neg (not_not_intro hzero), hop, himm]
    cases i <;> simp [decodePlain_num, himm, Instr.op, Instr.imm]

/-- A command has a command word exactly when its immediate fits the nine-bit field (R57). -/
theorem wellFormed_iff (i : Instr) : i.WellFormed ↔ i.imm < 512 := by
  refine ⟨imm_lt_of_wellFormed, fun h => ?_⟩
  cases i with
  | cksum n => exact decide_eq_true h
  | unpack ebits => exact decide_eq_true h
  | _ => rfl

/-- Settles O22: the fields of the command word are the command's, and the decoder reads nothing else. -/
theorem decodeOfEncode : Obligations.DecodeOfEncode := by
  intro i hi
  have himm := imm_lt_of_wellFormed hi
  have hop := toNat_op_le i
  rw [decode_eq_ok_iff, toNat_encode hi]
  omega

/-- Settles O23: the three fields the decoder fixes are the whole word. -/
theorem encodeOfDecode : Obligations.EncodeOfDecode := by
  intro w i h
  obtain ⟨hzero, hop, himm⟩ := decode_eq_ok_iff.1 h
  have hi : i.WellFormed := (wellFormed_iff i).2 (by omega)
  refine ⟨hi, BitVec.eq_of_toNat_eq ?_⟩
  rw [toNat_encode hi]
  omega

theorem decode_eq_ok_iff_encode {w : Word} {i : Instr} : decode w = .ok i ↔ i.WellFormed ∧ encode i = w :=
  ⟨encodeOfDecode w i, fun ⟨hi, hw⟩ => hw ▸ decodeOfEncode i hi⟩

/-! ### The rows of the opcode map -/

/-- The mask of the rows without an immediate is the whole word (R58). -/
theorem decode_eq_ok_iff_fullMask {i : Instr} (hi : i.WellFormed) (w : Word) :
    decode w = .ok i ↔ w &&& 0xFFFFFFFF = encode i := by
  have hmask : w &&& 0xFFFFFFFF = w := BitVec.and_allOnes
  rw [decode_eq_ok_iff_encode, hmask]
  exact ⟨fun h => h.2.symm, fun h => ⟨hi, h.symm⟩⟩

theorem toNat_append_fields (zero : BitVec 19) (imm : BitVec 9) (op : BitVec 4) :
    (zero ++ imm ++ op).toNat = op.toNat + 16 * imm.toNat + 8192 * zero.toNat := by
  have himm := imm.isLt
  have hop := op.isLt
  rw [BitVec.toNat_append, ← Nat.shiftLeft_add_eq_or_of_lt hop, BitVec.toNat_append,
    ← Nat.shiftLeft_add_eq_or_of_lt himm]
  simp only [Nat.shiftLeft_eq]
  omega

theorem word_eq_append_fields (w : Word) : w = fieldZero w ++ fieldImm w ++ fieldOp w :=
  BitVec.eq_of_toNat_eq ((word_eq_fields w).trans (toNat_append_fields _ _ _).symm)

/-- The mask of the rows with an immediate cuts out `zero` and `op` (R58). -/
theorem and_immMask (w : Word) : w &&& 0xFFFFE00F = fieldZero w ++ 0#9 ++ fieldOp w := by
  have hmask : (0xFFFFE00F : Word) = BitVec.allOnes 19 ++ 0#9 ++ BitVec.allOnes 4 := by decide
  conv_lhs => rw [word_eq_append_fields w, hmask, BitVec.and_append, BitVec.and_append]
  rw [BitVec.and_allOnes, BitVec.and_allOnes, BitVec.and_zero]

theorem decode_eq_ok_iff_immMask (w : Word) (i : Instr) :
    decode w = .ok i ↔ w &&& 0xFFFFE00F = BitVec.ofNat 32 i.op.toNat ∧ i.imm = w.toNat / 16 % 512 := by
  have hop := toNat_op_le i
  rw [and_immMask, decode_eq_ok_iff, ← BitVec.toNat_inj, toNat_append_fields, toNat_fieldZero, toNat_fieldOp,
    BitVec.toNat_ofNat, BitVec.toNat_ofNat]
  omega

/-- Settles O18: the rows without an immediate by their command word, those with one by the fields the mask leaves. -/
theorem rowsOfTheOpcodeMap : Obligations.RowsOfTheOpcodeMap := by
  refine ⟨fun w => ⟨decode_eq_ok_iff_fullMask rfl w, fun n => decode_eq_ok_iff_immMask w (.cksum n),
    decode_eq_ok_iff_fullMask rfl w, fun ebits => decode_eq_ok_iff_immMask w (.unpack ebits),
    decode_eq_ok_iff_fullMask rfl w, decode_eq_ok_iff_fullMask rfl w, decode_eq_ok_iff_fullMask rfl w⟩,
    fun _ _ => rfl, fun _ _ => rfl⟩

/-! ### Legal and illegal words -/

theorem exists_decode_eq_ok_iff (w : Word) : (∃ i, decode w = .ok i) ↔
    w.toNat / 8192 = 0 ∧ (w.toNat % 16 = 1 ∨ w.toNat % 16 = 3 ∨
      (w.toNat % 16 ∈ [0, 2, 4, 5, 6] ∧ w.toNat / 16 % 512 = 0)) := by
  simp only [decode_eq_ok_iff, List.mem_cons, List.not_mem_nil, or_false]
  constructor
  · rintro ⟨i, hzero, hop, himm⟩
    refine ⟨hzero, ?_⟩
    rw [hop, himm]
    cases i <;> simp [Instr.op, Instr.imm]
  · rintro ⟨hzero, hop | hop | ⟨hop | hop | hop | hop | hop, himm⟩⟩
    · exact ⟨.cksum _, hzero, hop, rfl⟩
    · exact ⟨.unpack _, hzero, hop, rfl⟩
    · exact ⟨.nop, hzero, hop, himm⟩
    · exact ⟨.pack, hzero, hop, himm⟩
    · exact ⟨.encode, hzero, hop, himm⟩
    · exact ⟨.decode, hzero, hop, himm⟩
    · exact ⟨.clear, hzero, hop, himm⟩

theorem mkStatus_illegalCommand (op : BitVec 4) :
    mkStatus .illegalCommand op 0 = BitVec.ofNat 32 (6 + 16 * op.toNat) := by
  have hop := op.isLt
  refine BitVec.eq_of_toNat_eq ?_
  rw [toNat_mkStatus, BitVec.toNat_ofNat]
  change 6 + 16 * op.toNat + 256 * 0 = _
  omega

/-- The illegal-word action as a step: the write is answered `OKAY` and `STATUS` alone is written (R59, R103). -/
theorem step_illegal {s : State} {w : Word} {rest : List BusEvent} (hw : ∀ i, decode w ≠ .ok i)
    (h : s.pending = .write 0x04 4 w :: rest) :
    step s = .next { s with pending := rest, reply := some (.write .okay),
                            status := BitVec.ofNat 32 (6 + 16 * (w.toNat % 16)) } := by
  obtain ⟨i, hi⟩ | ⟨e, he⟩ := decode_cases w
  · exact absurd hi (hw i)
  · rw [step_cmd h, runWord_illegal _ he, illegalCommand, raise, mkStatus_illegalCommand, toNat_fieldOp]
    rfl

/-- The commands that have a command word: five without an immediate, and two with any of 512. -/
def wellFormedCommands : List Instr :=
  [.nop, .pack, .encode, .decode, .clear] ++ (List.range 512).map .cksum ++ (List.range 512).map .unpack

theorem mem_wellFormedCommands (i : Instr) : i ∈ wellFormedCommands ↔ i.WellFormed := by
  rw [wellFormed_iff]
  cases i <;> simp [wellFormedCommands, Instr.imm]

theorem nodup_wellFormedCommands : wellFormedCommands.Nodup := by
  have hcksum := List.nodup_range (n := 512).map (f := Instr.cksum) fun _ _ => Instr.cksum.inj
  have hunpack := List.nodup_range (n := 512).map (f := Instr.unpack) fun _ _ => Instr.unpack.inj
  simp [wellFormedCommands, List.nodup_append, hcksum, hunpack]

/-- Two well-formed commands have different command words: the decoder tells them apart. -/
theorem encode_inj_of_wellFormed {i j : Instr} (hi : i.WellFormed) (hj : j.WellFormed) (h : encode i = encode j) :
    i = j := by
  have hdec := decodeOfEncode i hi
  rw [h, decodeOfEncode j hj] at hdec
  exact (Except.ok.inj hdec).symm

/-- The legal words are the command words of the well-formed commands. -/
theorem mem_map_encode_iff (w : Word) : w ∈ wellFormedCommands.map encode ↔ ∃ i, decode w = .ok i := by
  simp only [List.mem_map, mem_wellFormedCommands, decode_eq_ok_iff_encode]

/-- Settles O19: the legal words are listed as the command words of the well-formed commands. -/
theorem illegalWordsAndTheirEffect : Obligations.IllegalWordsAndTheirEffect := by
  refine ⟨exists_decode_eq_ok_iff, fun w hw s rest h => step_illegal hw h,
    wellFormedCommands.map encode, ?_, ?_, mem_map_encode_iff⟩
  · refine List.Nodup.map_on (fun i hi j hj => ?_) nodup_wellFormedCommands
    exact encode_inj_of_wellFormed ((mem_wellFormedCommands i).1 hi) ((mem_wellFormedCommands j).1 hj)
  · simp [wellFormedCommands]

/-- Settles O20: the cases by the fields of the word, and the action by what a write to `CMD` runs. -/
theorem decodingIsTotal : Obligations.DecodingIsTotal := by
  rintro w op imm z rfl rfl rfl
  have decodes : ∀ i : Instr, w.toNat / 8192 = 0 → w.toNat % 16 = i.op.toNat → w.toNat / 16 % 512 = i.imm →
      decode w = .ok i := fun i hz hop himm => decode_eq_ok_iff.2 ⟨hz, hop, himm⟩
  refine ⟨fun hz i hi => hz (decode_eq_ok_iff.1 hi).1, (decodes (.cksum _) · · rfl), (decodes (.unpack _) · · rfl),
    fun hz himm => ?_, fun hz h i hi => ?_, fun s rest h => ?_⟩
  · exact ⟨(decodes .nop hz · himm), (decodes .pack hz · himm), (decodes .encode hz · himm),
      (decodes .decode hz · himm), (decodes .clear hz · himm)⟩
  · obtain ⟨-, hlegal⟩ := (exists_decode_eq_ok_iff w).1 ⟨i, hi⟩
    simp only [List.mem_cons, List.not_mem_nil, or_false] at hlegal h
    omega
  · obtain ⟨t, ht, hop, -⟩ := step_cmd_status h
    refine ⟨t, ht, hop, fun i hi => ?_, fun hw => ?_⟩
    · exact (runWord_ok _ hi).symm.trans ((step_cmd h).symm.trans ht)
    · exact Host.Outcome.next.inj (ht.symm.trans (step_illegal hw h))

/-- Settles O21: the legal words as command words of the commands named, the others by the fields. -/
theorem sampleCommandWords : Obligations.SampleCommandWords := by
  constructor
  · intro p hp
    suffices h : p.1.WellFormed ∧ encode p.1 = p.2 from ⟨decode_eq_ok_iff_encode.2 h, h.2⟩
    revert p
    decide
  · suffices h : ∀ w ∈ _, ¬∃ i, decode w = .ok i from fun w hw i hi => h w hw ⟨i, hi⟩
    simp [exists_decode_eq_ok_iff]

end Sys2Proof.Machine
end

section
/-! PROOFS. The pseudo-instruction `LDENT` (30_encoding.md R64): its transactions store the words of `putEntropy` into
the registers that hold the entropy, and into no others. -/

namespace Sys2Proof.Machine

theorem length_wordWrites (off : BitVec 8) (ws : List Word) : (wordWrites off ws).length = ws.length := by
  induction ws generalizing off with
  | nil => rfl
  | cons w ws ih => simp [wordWrites, ih]

theorem getElem_wordWrites (off : BitVec 8) (ws : List Word) (i : Nat) (h : i < (wordWrites off ws).length) :
    (wordWrites off ws)[i] =
      .write (off + BitVec.ofNat 8 (4 * i)) 4 (ws[i]'(length_wordWrites off ws ▸ h)) := by
  induction ws generalizing off i with
  | nil => simp [wordWrites] at h
  | cons w ws ih =>
    cases i with
    | zero => simp [wordWrites]
    | succ i =>
      simp only [wordWrites, List.getElem_cons_succ, ih, Nat.mul_succ, Nat.add_comm (4 * i), BitVec.ofNat_add]
      rw [← BitVec.add_assoc]
      rfl

/-- The words `LDENT` writes are the leading ones of the buffer that holds the entropy and zeros after it (R24, R64). -/
theorem getElem_ldentWords (e : List Byte) (i : Nat) (h : i < (ldentWords e).length) (hi : i < 8) :
    (ldentWords e)[i] = (entWords e)[i] := by
  simp [ldentWords, getElem_groups, entWords, beWord]

/-- The registers `LDENT e` writes, in order (R64). -/
def ldentRegs (e : List Byte) : List Reg :=
  .elen :: ((List.finRange 8).take ((e.length + 3) / 4)).map .entw

theorem entw_mem_ldentRegs (e : List Byte) (k : Fin 8) : .entw k ∈ ldentRegs e ↔ k.val < (e.length + 3) / 4 := by
  have hmem : k ∈ (List.finRange 8).take ((e.length + 3) / 4) ↔ k.val < (e.length + 3) / 4 := by
    rw [List.mem_take_iff_getElem]
    refine ⟨?_, fun hk => ⟨k, by simp [hk], by simp⟩⟩
    rintro ⟨j, hj, rfl⟩
    simp only [List.getElem_finRange, Fin.val_cast]
    omega
  simpa [ldentRegs, -List.map_take] using hmem

theorem ldent_events (e : List Byte) (s : State) (he : e.length ≤ 32) :
    (HostAction.ldent e).events = (ldentRegs e).map fun r => .write r.offset 4 (readReg (putEntropy e s) r) := by
  rw [HostAction.events, ldentRegs, List.map_cons]
  congr 1
  rw [List.map_map]
  refine List.ext_getElem ?_ fun i h1 h2 => ?_
  · simp only [length_wordWrites, ldentWords, List.length_map, length_groups, List.length_take, List.length_finRange]
    omega
  · rw [length_wordWrites] at h1
    have hi : i < 8 := by
      simp only [ldentWords, List.length_map, length_groups] at h1
      omega
    have hoffset : (Reg.entw 0).offset + BitVec.ofNat 8 (4 * i) = (Reg.entw ⟨i, hi⟩).offset :=
      (BitVec.ofNat_add _ _).symm
    rw [getElem_wordWrites, hoffset, getElem_ldentWords e i h1 hi]
    simp [readReg]

/-- The entropy depends on its length and on the words that hold a byte of it (R24). -/
theorem entropy_eq_of_readReg {s t : State} (hs : s.elen.toNat ≤ 32) (hlen : readReg t .elen = readReg s .elen)
    (hwords : ∀ k : Fin 8, 4 * k.val < s.elen.toNat → readReg t (.entw k) = readReg s (.entw k)) :
    t.entropy = s.entropy := by
  have helen : t.elen = s.elen := hlen
  rw [State.entropy, State.entropy, helen]
  refine List.map_congr_left fun j hj => ?_
  rw [List.mem_range] at hj
  have hk : j / 4 < 8 := by omega
  have hword : t.entw[j / 4] = s.entw[j / 4] := hwords ⟨j / 4, hk⟩ (show 4 * (j / 4) < _ by omega)
  simp only [State.ent, Vector.getElem?_eq_getElem hk, hword]

/-- None of the stores of `LDENT` is refused (R52). -/
theorem storeReg_ldentRegs_ne_none {e : List Byte} (he : e.length ≤ 32) (s : State) {r : Reg} (hr : r ∈ ldentRegs e)
    (u : State) : storeReg u r (readReg (putEntropy e s) r) ≠ none := by
  rw [Ne, storeReg_eq_none_iff]
  simp only [ldentRegs, List.mem_cons, List.mem_map] at hr
  obtain rfl | ⟨k, -, rfl⟩ := hr
  · have hlen : (readReg (putEntropy e s) .elen).toNat = e.length := toNat_ofNat_of_lt he (by omega)
    simp [hlen, he]
  · simp

/-- Settles O17: the run stores `putEntropy e s` register by register, and its entropy is `e`. -/
theorem ldentLoadsTheEntropy : Obligations.LdentLoadsTheEntropy := by
  intro s e he
  obtain ⟨t, hrun, hread⟩ := run_stores (readReg (putEntropy e s)) (ldentRegs e)
    { s with pending := (HostAction.ldent e).events }
    (fun r hr u => storeReg_ldentRegs_ne_none he s hr u) (ldent_events e s he)
  have hlen : (putEntropy e s).elen.toNat = e.length := toNat_ofNat_of_lt he (by omega)
  have hentropy : t.entropy = (putEntropy e s).entropy := by
    refine entropy_eq_of_readReg (by omega) ?_ fun k hk => ?_
    · rw [hread, if_pos (by simp [ldentRegs])]
    · rw [hread, if_pos ((entw_mem_ldentRegs e k).2 (by omega))]
  refine ⟨t, ?_, hentropy.trans (entropy_putEntropy e s he), fun k hk => ?_⟩
  · rw [congrArg List.length (ldent_events e s he), List.length_map]
    exact hrun
  · rw [hread, if_neg (by rw [entw_mem_ldentRegs]; omega)]
    rfl

end Sys2Proof.Machine
end

section
/-! PROOFS. The checksum extractor (40_checksum.md): what `CKSUM n` leaves (R68), and what the leading bits of a digest
are, as a sequence and as a number, for every hash function (R69). -/

namespace Sys2Proof.Machine

/-- The state a `CKSUM` that ends `OK` leaves, register by register (R68). -/
theorem execCksum_ok {n : Nat} (s : State) (hn : n ≤ 256) :
    execCksum n s = .next { s with csbw := csbWords (checksumBits hashPort s.entropy n), cslen := BitVec.ofNat 32 n,
                                   status := 0x10 } := by
  rw [execCksum, cksumWith_ok s hn, finish, putChecksum, length_checksumBits, Nat.min_eq_left hn]
  rfl

/-- Settles O29: the word by its fields, and each way `CKSUM` ends by the answer it gives there. -/
theorem cksumWritesLeadingDigestBits : Obligations.CksumWritesLeadingDigestBits := by
  refine ⟨fun n hn => decodeOfEncode (.cksum n) ((wellFormed_iff _).2 hn), fun n s => ⟨fun hn => ?_, fun hn => ?_⟩⟩
  · exact ⟨_, execCksum_ok s hn, rfl, fun i hi => csb_putChecksum_checksumBits hashPort s.entropy n s hi⟩
  · exact cksumWith_badParameter (H := hashPort) s hn

theorem checksumBits_eq_take (H : HashFn) (e : List Byte) {m n : Nat} (h : m ≤ n) :
    checksumBits H e m = (checksumBits H e n).take m := by
  rw [checksumBits, checksumBits, List.take_take, Nat.min_eq_left h]

/-- The first `n` digest bits, as a number, are the `n` most significant bits of the digest (R67). -/
theorem val_checksumBits (H : HashFn) (e : List Byte) (n : Nat) :
    val (checksumBits H e n) = (H e).toNat / 2 ^ (256 - n) := by
  rw [checksumBits, val_take, length_bitsOf, val_bitsOf, Nat.mod_eq_of_lt (BitVec.isLt _)]

/-- Settles O31: both divisions cut the digest after the same bit, since a valid entropy has at most 8 checksum bits. -/
theorem checksumBitsOfADigest : Obligations.ChecksumBitsOfADigest := by
  refine ⟨fun H e m n h _ => checksumBits_eq_take H e h, ?_⟩
  rintro H e n firstByte hlen hn rfl
  have hn8 : n ≤ 8 := by
    simp only [List.mem_cons, List.not_mem_nil, or_false] at hlen
    omega
  have hcut : 256 - n = 248 + (8 - n) := by omega
  rw [val_checksumBits, hcut, Nat.pow_add, Nat.div_div_eq_div_mul]

end Sys2Proof.Machine
end

section
/-! PROOFS. The bit-packing codec (41_bitpack.md): what `PACK` and `UNPACK` leave (R75, R77), the indices of `pack` as
digits of one number (R79), and that the two commands undo each other (R76). -/

namespace Sys2Proof.Machine

/-! ### PACK -/

/-- The state a `PACK` that ends `OK` leaves, register by register (R75). -/
theorem execPack_ok_registers {s : State} (h11 : s.packBits % 11 = 0) (h24 : s.packBits / 11 ≤ 24) :
    execPack s = .next { s with idx := idxWords (pack s.entropy s.checksum),
                                wcnt := BitVec.ofNat 32 (s.packBits / 11), status := 0x20 } := by
  rw [execPack_ok h11 h24, finish, putIndices, length_pack, length_entropy, length_checksum]
  rfl

/-- Settles O32: each way `PACK` ends by the answer it gives there, and the slots by `slot_putIndices_pack`. -/
theorem packGroupsTheStream : Obligations.PackGroupsTheStream := by
  refine ⟨decodeOfEncode .pack rfl, ?_⟩
  rintro s total rfl
  refine ⟨fun h11 h24 => ⟨_, execPack_ok_registers h11 h24, rfl, fun g hg => ?_⟩, execPack_badParameter⟩
  have hslot := slot_putIndices_pack s.entropy s.checksum s hg
  rwa [length_entropy, length_checksum] at hslot

/-! ### The indices as digits of one number -/

/-- The rest of a bit sequence, after its first `n` bits, spells the trailing digits of its number. -/
theorem val_drop (l : List Bool) (n : Nat) : val (l.drop n) = val l % 2 ^ (l.length - n) := by
  have hval := val_append (l.take n) (l.drop n)
  have htail := val_lt (l.drop n)
  rw [List.take_append_drop] at hval
  rw [List.length_drop] at hval htail
  rw [hval, Nat.mul_add_mod_self_right, Nat.mod_eq_of_lt htail]

/-- A window of `k` bits that ends `m` bits before the end of a sequence is digit `m` of its number, in base `2 ^ k`. -/
theorem val_take_drop {l : List Bool} {n k m : Nat} (h : l.length = n + k + m) :
    val ((l.drop n).take k) = val l / 2 ^ m % 2 ^ k := by
  have hcut : (l.drop n).length - k = m := by rw [List.length_drop]; omega
  have hrest : l.length - n = m + k := by omega
  rw [val_take, val_drop, hcut, hrest, Nat.pow_add, Nat.mod_mul_right_div_self]

/-- Settles O33: group `g` of the stream is a window of 11 bits with `11 (W - 1 - g)` bits after it. -/
theorem packAsOneNumber : Obligations.PackAsOneNumber := by
  rintro e c count number hlen rfl
  refine List.ext_getElem (by simp [hlen]) fun g hg _ => ?_
  have hwindow : (combined e c).length = 11 * g + 11 + 11 * (count - 1 - g) := by
    rw [length_pack] at hg
    rw [length_combined]
    omega
  rw [getElem_pack, val_take_drop hwindow, combined, val_append, List.getElem_map, List.getElem_range]
  rfl

/-! ### UNPACK -/

theorem length_unpack_fst_of_le {w : List Nat} {ebits : Nat} (h : ebits ≤ 11 * w.length) :
    (unpack w ebits).1.length = ebits / 8 := by
  rw [length_unpack_fst, Nat.min_eq_left h]

/-- Byte `j` of the unpacked entropy is byte `j` of the index stream (R74). -/
theorem getElem_unpack_fst (w : List Nat) (ebits j : Nat) (h : j < (unpack w ebits).1.length) :
    (unpack w ebits).1[j] = BitVec.ofNat 8 (val (((indexStream w).drop (8 * j)).take 8)) := by
  have hbyte : min 8 (ebits - 8 * j) = 8 := by
    rw [length_unpack_fst] at h
    omega
  simp only [unpack, getElem_bytes, List.drop_take, List.take_take, hbyte]

/-- The entropy bytes that a command writes from an unpacking (R74, R77). -/
theorem ent_putEntropy_unpack {w : List Nat} {ebits : Nat} (h : ebits ≤ 11 * w.length) (s : State) {j : Nat}
    (hj : j < 32) :
    ((putEntropy (unpack w ebits).1 s).ent j).toNat =
      if j < ebits / 8 then val (((indexStream w).drop (8 * j)).take 8) else 0 := by
  have hlen := length_unpack_fst_of_le h
  rw [ent_putEntropy _ _ _ hj]
  split
  · rw [List.getD_eq_getElem _ _ (by omega), getElem_unpack_fst, BitVec.toNat_ofNat, Nat.mod_eq_of_lt]
    exact Nat.lt_of_lt_of_le (val_lt _) (Nat.pow_le_pow_right (by omega) (List.length_take_le _ _))
  · rw [List.getD_eq_default _ _ (by omega)]
    rfl

/-- The checksum bits that a command writes from an unpacking (R74, R77). -/
theorem csb_putChecksum_unpack (w : List Nat) (ebits : Nat) (s : State) {i : Nat} (hi : i < 256) :
    (putChecksum (unpack w ebits).2 s).csb i =
      if i < 11 * w.length - ebits then (indexStream w).getD (ebits + i) false else false := by
  rw [csb_putChecksum _ _ _ hi]
  split
  · simp [unpack, List.getD_eq_getElem?_getD, List.getElem?_drop]
  · rw [List.getD_eq_default _ _ (by rw [length_unpack_snd]; omega)]

/-- `STATUS` after a malformed index, as a number (R22, R105). -/
theorem mkStatus_malformedIndex (op : BitVec 4) {g : Nat} (hg : g < 32) :
    mkStatus .malformedIndex op (BitVec.ofNat 5 g) = BitVec.ofNat 32 (4 + 16 * op.toNat + 256 * g) := by
  have hop := op.isLt
  refine BitVec.eq_of_toNat_eq ?_
  rw [toNat_mkStatus, BitVec.toNat_ofNat, BitVec.toNat_ofNat, Nat.mod_eq_of_lt hg, Nat.mod_eq_of_lt (by omega)]
  rfl

/-- The state an `UNPACK` that ends `OK` leaves, register by register (R77). -/
theorem execUnpack_ok_registers {s : State} {ebits : Nat} (h : s.firstBadIndex = none) (h8 : ebits % 8 = 0)
    (hT : ebits ≤ s.indexBits) (he : ebits ≤ 256) (hc : s.indexBits - ebits ≤ 256) :
    execUnpack ebits s =
      .next { s with entw := entWords (unpack s.indices ebits).1, elen := BitVec.ofNat 32 (ebits / 8),
                     csbw := csbWords (unpack s.indices ebits).2, cslen := BitVec.ofNat 32 (s.indexBits - ebits),
                     status := 0x30 } := by
  have hlen : (unpack s.indices ebits).1.length = ebits / 8 :=
    length_unpack_fst_of_le (by rwa [length_indices])
  rw [execUnpack_ok h h8 hT he hc, finish, putChecksum, putEntropy, hlen, length_unpack_snd, length_indices]
  rfl

/-- Settles O34: each way `UNPACK` ends by the answer it gives there. -/
theorem unpackSplitsTheStream : Obligations.UnpackSplitsTheStream := by
  refine ⟨fun n hn => decodeOfEncode (.unpack n) ((wellFormed_iff _).2 hn), ?_⟩
  rintro ebits s total rfl
  refine ⟨fun g hg hbad hleast => ?_, fun hgood => ?_⟩
  · have hfirst := firstBadIndex_eq_some.2 ⟨hg, hbad, hleast⟩
    have hstatus := mkStatus_malformedIndex 3 (Nat.lt_trans (firstBadIndex_lt hfirst) (show 24 < 32 by omega))
    exact (execUnpack_badIndex ebits hfirst).trans (by rw [raise, hstatus]; rfl)
  · have hnone := firstBadIndex_eq_none.2 hgood
    refine ⟨execUnpack_badMultiple hnone, execUnpack_badParameter hnone, fun h8 hT he hc => ?_⟩
    refine ⟨_, execUnpack_ok_registers hnone h8 hT he hc, rfl, fun j hj => ?_, fun i hi => ?_⟩
    · exact ent_putEntropy_unpack (by rwa [length_indices]) s hj
    · have hbit := csb_putChecksum_unpack s.indices ebits s hi
      rwa [length_indices] at hbit

/-! ### PACK and UNPACK undo each other -/

/-- `UNPACK` of a packed index sequence writes the entropy and the checksum it was packed from. -/
theorem execUnpack_of_indices_eq_pack {e : List Byte} {c : List Bool} {t : State}
    (h11 : (8 * e.length + c.length) % 11 = 0) (he : e.length ≤ 32) (hc : c.length ≤ 256)
    (ht : t.indices = pack e c) :
    execUnpack (8 * e.length) t = finish 3 (putChecksum c (putEntropy e t)) := by
  have hbits : t.indexBits = 8 * e.length + c.length := by
    rw [State.indexBits, ← length_indices, ht, length_pack]
    omega
  have hgood : t.firstBadIndex = none := firstBadIndex_eq_none_of_lt fun v hv => pack_lt (ht ▸ hv)
  rw [execUnpack_ok hgood (by omega) (by omega) (by omega) (by omega), ht, unpack_pack e c h11]

/-- `PACK` of the two parts of an index sequence writes that sequence. -/
theorem execPack_of_operands_eq_unpack {w : List Nat} {ebits : Nat} {t : State} (hw : ∀ v ∈ w, v < 2048)
    (hlen : w.length ≤ 24) (h8 : ebits % 8 = 0) (hT : ebits ≤ 11 * w.length)
    (he : t.entropy = (unpack w ebits).1) (hc : t.checksum = (unpack w ebits).2) :
    execPack t = finish 2 (putIndices w t) := by
  have hbits : t.packBits = 11 * w.length := by
    rw [State.packBits, ← length_entropy, ← length_checksum, he, hc, length_unpack_fst_of_le hT, length_unpack_snd]
    omega
  rw [execPack_ok (by omega) (by omega), he, hc, pack_unpack w ebits hw h8 hT]

/-- After a `PACK` that ended `OK`, `UNPACK 8*ELEN` writes the operands `PACK` had (R76). -/
theorem execUnpack_after_execPack {s t : State} (hs : s.InRange) (h : execPack s = .next t)
    (hok : statusResult t.status = 0) :
    execUnpack (8 * s.elen.toNat) t = finish 3 (putChecksum s.checksum (putEntropy s.entropy t)) := by
  obtain ⟨helen, hcslen, -⟩ := hs
  obtain ⟨h11, h24, rfl⟩ := execPack_result_ok h hok
  rw [← length_entropy]
  refine execUnpack_of_indices_eq_pack (by simpa [State.packBits] using h11) (by simpa using helen)
    (by simpa using hcslen) ?_
  exact indices_putIndices _ s (by simpa [State.packBits] using h24) fun _ => pack_lt

/-- After an `UNPACK` that ended `OK`, `PACK` writes the index sequence `UNPACK` had (R76). -/
theorem execPack_after_execUnpack {s t : State} {ebits : Nat} (hs : s.InRange) (h : execUnpack ebits s = .next t)
    (hok : statusResult t.status = 0) : execPack t = finish 2 (putIndices s.indices t) := by
  obtain ⟨-, -, hwcnt, -⟩ := hs
  obtain ⟨hgood, h8, hT, he, hc, rfl⟩ := execUnpack_result_ok h hok
  have hTlen : ebits ≤ 11 * s.indices.length := by rwa [length_indices]
  refine execPack_of_operands_eq_unpack (indices_lt hgood) (by simpa using hwcnt) h8 hTlen ?_ ?_
  · exact entropy_putEntropy _ s (by rw [length_unpack_fst_of_le hTlen]; omega)
  · exact checksum_putChecksum _ (putEntropy (unpack s.indices ebits).1 s) (by rwa [length_unpack_snd, length_indices])

/-- Settles O37: the functions by `unpack_pack` and `pack_unpack`, each command by what it answers after the other. -/
theorem packAndUnpackAreInverses : Obligations.PackAndUnpackAreInverses := by
  refine ⟨unpack_pack, fun w ebits hw => pack_unpack w ebits fun v hv => Nat.lt_succ_of_le (hw v hv),
    fun s t hs h hok => ?_, fun s t ebits hs h hok => ?_⟩
  · have hrun := execUnpack_after_execPack hs h hok
    obtain ⟨helen, hcslen, -⟩ := hs
    rw [← length_entropy] at helen
    rw [← length_checksum] at hcslen
    have hent := entropy_putEntropy s.entropy t helen
    have hcsb := checksum_putChecksum s.checksum (putEntropy s.entropy t) hcslen
    have helenEq := elen_eq_of_entropy_eq hent
    have hcslenEq := cslen_eq_of_checksum_eq hcsb
    refine ⟨_, hrun, statusResult_mkStatus .ok 3 0, helenEq, hent, hcslenEq, hcsb, fun j hj => ?_, fun i hi => ?_⟩
    · exact ent_putEntropy_beyond t helen (helenEq ▸ hj)
    · exact csb_putChecksum_beyond (putEntropy s.entropy t) hcslen (hcslenEq ▸ hi)
  · have hrun := execPack_after_execUnpack hs h hok
    obtain ⟨-, -, hwcnt, -⟩ := hs
    obtain ⟨hgood, -⟩ := execUnpack_result_ok h hok
    have hidx := indices_putIndices s.indices t (by rwa [length_indices]) (indices_lt hgood)
    exact ⟨_, hrun, statusResult_mkStatus .ok 2 0, wcnt_eq_of_indices_eq hidx, hidx⟩

end Sys2Proof.Machine
end

section
/-! PROOFS. The index-level steps of the Mnemonic Engine (42_mnemonic_seq.md): what `ENCODE` and `DECODE` leave (R82,
R83), that they undo each other (R84), and what a flipped stream bit does to `DECODE` (R85). -/

namespace Sys2Proof.Machine

/-! ### The lengths of a valid sequence -/

/-- A valid entropy and its checksum fill a whole number of indices (R5, R82). -/
theorem encodedBits_mod_eleven {len : Nat} (h : len ∈ Config.entLengths) :
    (8 * len + checksumLength len) % 11 = 0 := by
  have := mem_entLengths.1 h
  rw [checksumLength]; omega

theorem encodedCount_mem_wordCounts {len : Nat} (h : len ∈ Config.entLengths) :
    (8 * len + checksumLength len) / 11 ∈ Config.wordCounts := by
  have := mem_entLengths.1 h
  rw [mem_wordCounts, checksumLength]; omega

theorem entropyBits_encodedCount {len : Nat} (h : len ∈ Config.entLengths) :
    entropyBits ((8 * len + checksumLength len) / 11) = 8 * len := by
  have := mem_entLengths.1 h
  rw [entropyBits, checksumLength]; omega

theorem checksumLength_le {len : Nat} (h : len ∈ Config.entLengths) : checksumLength len ≤ 256 := by
  have := mem_entLengths.1 h
  rw [checksumLength]; omega

/-- The entropy of a valid sequence is a whole number of bytes, and its length is a valid one (R5, R83). -/
theorem entropyBits_mod_eight {count : Nat} (h : count ∈ Config.wordCounts) : entropyBits count % 8 = 0 := by
  have := mem_wordCounts.1 h
  rw [entropyBits]; omega

theorem entropyBytes_mem_entLengths {count : Nat} (h : count ∈ Config.wordCounts) :
    entropyBits count / 8 ∈ Config.entLengths := by
  have := mem_wordCounts.1 h
  rw [mem_entLengths, entropyBits]; omega

/-- The stream of a valid sequence is its entropy bits and one checksum bit for every 32 of them (R83). -/
theorem indexBits_eq {count : Nat} (h : count ∈ Config.wordCounts) :
    11 * count = entropyBits count + entropyBits count / 32 := by
  have := mem_wordCounts.1 h
  rw [entropyBits]; omega

theorem checksumLength_entropyBytes {count : Nat} (h : count ∈ Config.wordCounts) :
    checksumLength (entropyBits count / 8) = entropyBits count / 32 := by
  have := entropyBits_mod_eight h
  rw [checksumLength]; omega

theorem length_decodedEntropy_eq {s : State} (h : s.wcnt.toNat ∈ Config.wordCounts) :
    s.decodedEntropy.length = entropyBits s.wcnt.toNat / 8 := by
  have := indexBits_eq h
  rw [length_decodedEntropy, Nat.min_eq_left (by omega)]

theorem length_decodedChecksum_eq {s : State} (h : s.wcnt.toNat ∈ Config.wordCounts) :
    s.decodedChecksum.length = entropyBits s.wcnt.toNat / 32 := by
  have := indexBits_eq h
  rw [length_decodedChecksum]; omega

/-! ### ENCODE -/

theorem length_ownChecksum_eq (H : HashFn) {s : State} (h : s.elen.toNat ∈ Config.entLengths) :
    (s.ownChecksum H).length = checksumLength s.elen.toNat := by
  rw [length_ownChecksum, Nat.min_eq_left (checksumLength_le h)]

/-- The state an `ENCODE` that ends `OK` leaves, register by register (R82). -/
theorem execEncode_ok_registers {s : State} (h : s.elen.toNat ∈ Config.entLengths) :
    execEncode s = .next { s with
      csbw := csbWords (s.ownChecksum hashPort), cslen := BitVec.ofNat 32 (checksumLength s.elen.toNat),
      idx := idxWords (pack s.entropy (s.ownChecksum hashPort)),
      wcnt := BitVec.ofNat 32 ((8 * s.elen.toNat + checksumLength s.elen.toNat) / 11), status := 0x40 } := by
  rw [execEncode, encodeWith_ok _ h, finish, putIndices, putChecksum, length_pack, length_entropy,
    length_ownChecksum_eq _ h]
  rfl

/-- `CKSUM (ELEN/4)` and then `PACK` leave what `ENCODE` leaves, but for `STATUS` (R82). -/
theorem execPack_after_execCksum {s : State} (h : s.elen.toNat ∈ Config.entLengths) :
    ∃ u v, execCksum (s.elen.toNat / 4) s = .next u ∧ execPack u = .next v ∧
      execEncode s = .next { v with status := 0x40 } := by
  have hn : s.elen.toNat / 4 = checksumLength s.elen.toNat := by rw [checksumLength]; omega
  have h256 := checksumLength_le h
  obtain ⟨u, hu, hent, hchk, hencode⟩ : ∃ u, execCksum (s.elen.toNat / 4) s = .next u ∧ u.entropy = s.entropy ∧
      u.checksum = s.ownChecksum hashPort ∧
      execEncode s = .next { putIndices (pack s.entropy (s.ownChecksum hashPort)) u with status := 0x40 } := by
    rw [hn]
    exact ⟨_, cksumWith_ok s h256, rfl, checksum_putChecksum _ s (by simp), encodeWith_ok hashPort h⟩
  have hbits : u.packBits = 8 * s.elen.toNat + checksumLength s.elen.toNat := by
    rw [State.packBits, ← length_entropy, ← length_checksum, hent, hchk, length_entropy, length_ownChecksum_eq _ h]
  have hcount := mem_wordCounts.1 (hbits ▸ encodedCount_mem_wordCounts h)
  rw [← hent, ← hchk] at hencode
  exact ⟨u, _, hu, execPack_ok (hbits ▸ encodedBits_mod_eleven h) (by omega), hencode⟩

/-- Settles O35: each way `ENCODE` ends by the answer it gives there. -/
theorem encodeWritesChecksumAndIndices : Obligations.EncodeWritesChecksumAndIndices := by
  refine ⟨decodeOfEncode .encode rfl, ?_⟩
  rintro s len n count rfl rfl rfl
  refine ⟨fun h => ⟨_, execEncode_ok_registers h, rfl, fun i hi => ?_, fun g hg => ?_, ?_⟩,
    encodeWith_invalidLength hashPort⟩
  · exact csb_putChecksum_checksumBits hashPort s.entropy _ s hi
  · have hslot := slot_putIndices_pack s.entropy (s.ownChecksum hashPort) s hg
    rwa [length_entropy, length_ownChecksum_eq _ h] at hslot
  · obtain ⟨u, v, hu, hv, hencode⟩ := execPack_after_execCksum h
    rw [execEncode_ok_registers h] at hencode
    exact ⟨u, v, hu, hv, Host.Outcome.next.inj hencode⟩

/-! ### DECODE -/

/-- The state a `DECODE` that ends `OK` leaves, register by register (R83). -/
theorem execDecode_ok_registers {s : State} (h : s.wcnt.toNat ∈ Config.wordCounts) (hb : s.firstBadIndex = none)
    (hc : s.decodedChecksum = s.expectedChecksum hashPort) :
    execDecode s = .next { s with
      entw := entWords s.decodedEntropy, elen := BitVec.ofNat 32 (entropyBits s.wcnt.toNat / 8),
      csbw := csbWords s.decodedChecksum, cslen := BitVec.ofNat 32 (entropyBits s.wcnt.toNat / 32),
      status := 0x50 } := by
  rw [execDecode, decodeWith_ok h hb hc, finish, putChecksum, putEntropy, length_decodedEntropy_eq h,
    length_decodedChecksum_eq h]
  rfl

/-- A sequence padded with `d` reads as `d` from its length on. -/
theorem getD_eq_ite_of_length {α : Type} {l : List α} {n : Nat} (h : l.length = n) (i : Nat) (d : α) :
    l.getD i d = if i < n then l.getD i d else d := by
  split
  · rfl
  · exact List.getD_eq_default _ _ (by omega)

/-- Settles O36: each way `DECODE` ends by the answer it gives there. -/
theorem decodeValidatesAndUnpacks : Obligations.DecodeValidatesAndUnpacks := by
  refine ⟨decodeOfEncode .decode rfl, ?_⟩
  rintro s count ebits n e c rfl rfl rfl rfl rfl
  refine ⟨decodeWith_invalidCount hashPort, fun hcount => ⟨fun g hg hbad hleast => ?_, fun hgood => ?_⟩⟩
  · have hfirst := firstBadIndex_eq_some.2 ⟨hg, hbad, hleast⟩
    have hstatus := mkStatus_malformedIndex 5 (Nat.lt_trans (firstBadIndex_lt hfirst) (show 24 < 32 by omega))
    exact (decodeWith_badIndex hashPort hcount hfirst).trans (by rw [raise, hstatus]; rfl)
  · have hnone := firstBadIndex_eq_none.2 hgood
    refine ⟨decodeWith_invalidChecksum (H := hashPort) hcount hnone, fun hc => ?_⟩
    refine ⟨_, execDecode_ok_registers hcount hnone hc, rfl, fun j hj => ?_, fun i hi => ?_⟩
    · exact (ent_putEntropy _ s j hj).trans (getD_eq_ite_of_length (length_decodedEntropy_eq hcount) j 0)
    · exact (csb_putChecksum _ s i hi).trans (getD_eq_ite_of_length (length_decodedChecksum_eq hcount) i false)

/-! ### ENCODE and DECODE undo each other -/

/-- `DECODE` of the packing of a valid entropy with its own checksum writes that entropy and that checksum. -/
theorem decodeWith_of_indices_eq_pack {H : HashFn} {e : List Byte} {t : State}
    (he : e.length ∈ Config.entLengths)
    (ht : t.indices = pack e (checksumBits H e (checksumLength e.length))) :
    decodeWith H t = finish 5 (putChecksum (checksumBits H e (checksumLength e.length)) (putEntropy e t)) := by
  have hlen : (checksumBits H e (checksumLength e.length)).length = checksumLength e.length := by
    rw [length_checksumBits, Nat.min_eq_left (checksumLength_le he)]
  have hcount : t.wcnt.toNat = (8 * e.length + checksumLength e.length) / 11 := by
    rw [← length_indices, ht, length_pack, hlen]
  have hebits : entropyBits t.wcnt.toNat = 8 * e.length := by rw [hcount, entropyBits_encodedCount he]
  have hunpack : unpack t.indices (8 * e.length) = (e, checksumBits H e (checksumLength e.length)) := by
    rw [ht, unpack_pack e _ (by rw [hlen]; exact encodedBits_mod_eleven he)]
  have hent : t.decodedEntropy = e := by rw [State.decodedEntropy, hebits, hunpack]
  have hchk : t.decodedChecksum = checksumBits H e (checksumLength e.length) := by
    rw [State.decodedChecksum, hebits, hunpack]
  have hexp : t.expectedChecksum H = checksumBits H e (checksumLength e.length) := by
    rw [State.expectedChecksum, hebits, hent, checksumLength]
  have hgood : t.firstBadIndex = none := firstBadIndex_eq_none_of_lt fun v hv => pack_lt (ht ▸ hv)
  rw [decodeWith_ok (hcount ▸ encodedCount_mem_wordCounts he) hgood (hchk.trans hexp.symm), hchk, hent]

/-- After an `ENCODE` that ended `OK`, `DECODE` writes the entropy `ENCODE` had and its checksum (R84). -/
theorem decodeWith_after_encodeWith {H : HashFn} {s t : State} (h : encodeWith H s = .next t)
    (hok : statusResult t.status = 0) :
    decodeWith H t = finish 5 (putChecksum (s.ownChecksum H) (putEntropy s.entropy t)) := by
  obtain ⟨hlen, rfl⟩ := encodeWith_result_ok h hok
  have hidx := indices_putIndices (pack s.entropy (s.ownChecksum H)) (putChecksum (s.ownChecksum H) s)
    (length_pack_own_le hlen) fun _ => pack_lt
  rw [← length_entropy] at hlen
  rw [State.ownChecksum, ← length_entropy] at hidx ⊢
  exact decodeWith_of_indices_eq_pack hlen hidx

/-- `ENCODE` of an entropy of a valid length writes its own checksum and the packing of both. -/
theorem encodeWith_of_entropy_eq {H : HashFn} {e : List Byte} {t : State} (he : e.length ∈ Config.entLengths)
    (ht : t.entropy = e) :
    encodeWith H t = finish 4 (putIndices (pack e (checksumBits H e (checksumLength e.length)))
      (putChecksum (checksumBits H e (checksumLength e.length)) t)) := by
  subst ht
  rw [length_entropy] at he ⊢
  rw [encodeWith_ok H he, State.ownChecksum]

theorem entropy_of_decodeWith_ok {H : HashFn} {s t : State} (h : decodeWith H s = .next t)
    (hok : statusResult t.status = 0) : t.entropy = s.decodedEntropy := by
  obtain ⟨hcount, -, -, rfl⟩ := decodeWith_result_ok h hok
  exact entropy_putEntropy s.decodedEntropy s (length_decodedEntropy_le hcount)

/-- After a `DECODE` that ended `OK`, `ENCODE` writes the index sequence `DECODE` had and its checksum (R84). -/
theorem encodeWith_after_decodeWith {H : HashFn} {s t : State} (h : decodeWith H s = .next t)
    (hok : statusResult t.status = 0) :
    encodeWith H t = finish 4 (putIndices s.indices (putChecksum s.decodedChecksum t)) := by
  obtain ⟨hcount, hgood, hchk, -⟩ := decodeWith_result_ok h hok
  have hlen := length_decodedEntropy_eq hcount
  have hown : checksumBits H s.decodedEntropy (checksumLength s.decodedEntropy.length) = s.decodedChecksum := by
    rw [hlen, checksumLength_entropyBytes hcount, hchk, State.expectedChecksum]
  have hpack : pack s.decodedEntropy s.decodedChecksum = s.indices := by
    have := indexBits_eq hcount
    exact pack_unpack s.indices _ (indices_lt hgood) (entropyBits_mod_eight hcount) (by rw [length_indices]; omega)
  rw [encodeWith_of_entropy_eq (hlen ▸ entropyBytes_mem_entLengths hcount) (entropy_of_decodeWith_ok h hok), hown,
    hpack]

/-- Settles O38: each command by what it answers after the other. -/
theorem encodeDecodeRoundTrip : Obligations.EncodeDecodeRoundTrip := by
  refine ⟨fun s h => ?_, fun s t h hok => ?_⟩
  · obtain ⟨t, hencode, hok⟩ : ∃ t, encodeWith hashPort s = .next t ∧ statusResult t.status = 0 :=
      ⟨_, encodeWith_ok hashPort h, statusResult_mkStatus .ok 4 0⟩
    have hlen : s.entropy.length ≤ 32 := by
      have := mem_entLengths.1 h
      rw [length_entropy]; omega
    have hread := entropy_putEntropy s.entropy t hlen
    exact ⟨t, _, hencode, decodeWith_after_encodeWith hencode hok, statusResult_mkStatus .ok 5 0,
      elen_eq_of_entropy_eq hread, hread⟩
  · have hrun := encodeWith_after_decodeWith (H := hashPort) h hok
    obtain ⟨hcount, hgood, -⟩ := decodeWith_result_ok (H := hashPort) h hok
    have hlen : s.indices.length ≤ 24 := by
      have := mem_wordCounts.1 hcount
      rw [length_indices]; omega
    have hidx := indices_putIndices s.indices (putChecksum s.decodedChecksum t) hlen (indices_lt hgood)
    exact ⟨_, hrun, statusResult_mkStatus .ok 4 0, wcnt_eq_of_indices_eq hidx, hidx⟩

/-! ### A flipped stream bit -/

theorem decodeWith_ends_ok_iff {H : HashFn} {s : State} (h : s.wcnt.toNat ∈ Config.wordCounts)
    (hb : s.firstBadIndex = none) :
    (∃ u, decodeWith H s = .next u ∧ statusResult u.status = 0) ↔ s.decodedChecksum = s.expectedChecksum H := by
  refine ⟨fun ⟨u, hu, hok⟩ => ?_, fun hc => ⟨_, decodeWith_ok h hb hc, statusResult_mkStatus .ok 5 0⟩⟩
  obtain ⟨-, -, hc, -⟩ := decodeWith_result_ok hu hok
  exact hc

theorem bits_decodedEntropy {s : State} (h : s.wcnt.toNat ∈ Config.wordCounts) :
    bits s.decodedEntropy = (indexStream s.indices).take (entropyBits s.wcnt.toNat) := by
  have h8 := entropyBits_mod_eight h
  have hT := indexBits_eq h
  refine bits_bytes _ ?_
  rw [List.length_take, length_indexStream, length_indices, Nat.min_eq_left (by omega), h8]

theorem modify_not_ne {l : List Bool} {i : Nat} (h : i < l.length) : l.modify i (!·) ≠ l := by
  intro heq
  have hbit := List.getElem_modify (!·) i l i (by simpa using h)
  simp [heq] at hbit

/-- A flipped entropy bit leaves the checksum bits of the sequence (R85 (b)). -/
theorem decodedChecksum_flip_entropyBit {s : State} {p : Nat} (hslot : p / 11 < 24)
    (hp : p < entropyBits s.wcnt.toNat) : (s.flipStreamBit p).decodedChecksum = s.decodedChecksum := by
  have hdrop := List.drop_modify_of_lt (!·) p _ (indexStream s.indices) hp
  rwa [← indexStream_flipStreamBit s p hslot] at hdrop

theorem bits_decodedEntropy_flip {s : State} {p : Nat} (hcount : s.wcnt.toNat ∈ Config.wordCounts)
    (hslot : p / 11 < 24) : bits (s.flipStreamBit p).decodedEntropy = (bits s.decodedEntropy).modify p (!·) := by
  have htake := List.take_modify (!·) p (entropyBits s.wcnt.toNat) (indexStream s.indices)
  rw [← indexStream_flipStreamBit s p hslot, ← bits_decodedEntropy hcount] at htake
  exact (bits_decodedEntropy (s := s.flipStreamBit p) hcount).trans htake

/-- A flipped checksum bit leaves the entropy of the sequence (R85 (a)). -/
theorem decodedEntropy_flip_checksumBit {s : State} {p : Nat} (hcount : s.wcnt.toNat ∈ Config.wordCounts)
    (hslot : p / 11 < 24) (hp : entropyBits s.wcnt.toNat ≤ p) :
    (s.flipStreamBit p).decodedEntropy = s.decodedEntropy := by
  have hlen : (bits s.decodedEntropy).length ≤ p := by
    rw [length_bits, length_decodedEntropy_eq hcount]; omega
  rw [← bytes_bits (s.flipStreamBit p).decodedEntropy, bits_decodedEntropy_flip hcount hslot,
    List.modify_eq_self hlen, bytes_bits]

theorem decodedChecksum_flip_checksumBit {s : State} {p : Nat} (hslot : p / 11 < 24)
    (hp : entropyBits s.wcnt.toNat ≤ p) (hlt : p < 11 * s.wcnt.toNat) :
    (s.flipStreamBit p).decodedChecksum ≠ s.decodedChecksum := by
  have hdrop := List.drop_modify_of_ge (!·) p _ (indexStream s.indices) hp
  rw [← indexStream_flipStreamBit s p hslot] at hdrop
  have hflip : (s.flipStreamBit p).decodedChecksum =
      s.decodedChecksum.modify (p - entropyBits s.wcnt.toNat) (!·) := hdrop
  rw [hflip]
  exact modify_not_ne (by rw [length_decodedChecksum]; omega)

/-- Settles O39: a flipped checksum bit changes the checksum found and not the one expected, and a flipped entropy bit
the one expected and not the one found. -/
theorem checksumSensitivity : Obligations.ChecksumSensitivity := by
  rintro s t p ebits h hok rfl hp
  obtain ⟨hcount, hgood, hchk, -⟩ := decodeWith_result_ok (H := hashPort) h hok
  have hent : t.entropy = s.decodedEntropy := entropy_of_decodeWith_ok (H := hashPort) h hok
  have hebits : 8 * t.elen.toNat = entropyBits s.wcnt.toNat := by
    have := entropyBits_mod_eight hcount
    rw [← length_entropy, hent, length_decodedEntropy_eq hcount]; omega
  have hslot : p / 11 < 24 := by
    have := mem_wordCounts.1 hcount
    omega
  have hgood' := firstBadIndex_flipStreamBit hslot hgood
  rw [hebits, hent]
  refine ⟨fun hle => ?_, fun hlt => ?_⟩
  · refine decodeWith_invalidChecksum (H := hashPort) hcount hgood' fun hc => ?_
    rw [State.expectedChecksum, decodedEntropy_flip_checksumBit hcount hslot hle] at hc
    exact decodedChecksum_flip_checksumBit hslot hle hp (hc.trans hchk.symm)
  · refine ⟨(s.flipStreamBit p).decodedEntropy, bits_decodedEntropy_flip hcount hslot, ?_⟩
    have hends := decodeWith_ends_ok_iff (H := hashPort) (s := s.flipStreamBit p) hcount hgood'
    rw [decodedChecksum_flip_entropyBit hslot hlt, hchk] at hends
    exact hends.trans eq_comm

end Sys2Proof.Machine
end

section
/-! PROOFS. The control commands `NOP` (R87) and `CLEAR` (R88, with `execClear_eq`): their words and what each leaves
(43_control.md). -/

namespace Sys2Proof.Machine

/-- `NOP` leaves every register but `STATUS`, which becomes 0 (R87). -/
theorem execNop_eq (s : State) : execNop s = .next { s with status := 0 } := by
  have hstatus : mkStatus .ok 0 0 = 0 := by decide
  rw [execNop, finish, hstatus]

/-- A word that decodes to a command and has opcode 0 is all zeros: it is `NOP` or illegal (R58, R59). -/
theorem eq_zero_of_decode_of_mod_sixteen {w : Word} {i : Instr} (h : decode w = .ok i) (hop : w.toNat % 16 = 0) :
    w = 0 := by
  obtain ⟨hzero, hlegal⟩ := (exists_decode_eq_ok_iff w).1 ⟨i, h⟩
  exact BitVec.eq_of_toNat_eq (show w.toNat = 0 by omega)

/-- Settles O27: `NOP` by its answer, and a command word with opcode 0 leaves the immediate no bit to set. -/
theorem nopResetsStatusOnly : Obligations.NopResetsStatusOnly := by
  refine ⟨decodeOfEncode .nop rfl, execNop_eq, fun n hpos hn i hi => ?_⟩
  have hword : (BitVec.ofNat 32 (16 * n)).toNat = 16 * n := by rw [BitVec.toNat_ofNat]; omega
  have hzero := eq_zero_of_decode_of_mod_sixteen hi (by omega)
  have : 16 * n = 0 := hword.symm.trans (congrArg BitVec.toNat hzero)
  omega

/-- Settles O28, by the answer `CLEAR` gives from every state. -/
theorem clearZeroesEveryWritableRegister : Obligations.ClearZeroesEveryWritableRegister :=
  ⟨decodeOfEncode .clear rfl, execClear_eq⟩

end Sys2Proof.Machine
end

section
/-! PROOFS. The hash primitive (44_hash_primitive.md): what padding appends (R92), the digest as the stream of the final
hash value and the buffer it leaves (R96), and the check values (R97). -/

namespace Sys2Proof.Machine

/-- With its `0x80` and the zeros, a message ends eight bytes short of a whole block (R92). -/
theorem length_add_shaZeros_mod (len : Nat) : (len + 1 + shaZeros len) % 64 = 56 := by
  unfold shaZeros
  omega

/-- No smaller number of zeros does (R92). -/
theorem shaZeros_le_of_mod {len zeros : Nat} (h : (len + 1 + zeros) % 64 = 56) : shaZeros len ≤ zeros := by
  unfold shaZeros
  omega

theorem length_shaPad (m : List Byte) : (shaPad m).length = m.length + 1 + shaZeros m.length + 8 := by
  simp only [shaPad, List.length_append, List.length_cons, List.length_replicate, length_bytes, length_bitsOf]
  omega

theorem val_bits_bytes_bitsOf (n : Nat) {v : Nat} (hn : n % 8 = 0) (hv : v < 2 ^ n) :
    val (bits (bytes (bitsOf n v))) = v := by
  rw [bits_bytes _ (by rwa [length_bitsOf]), val_bitsOf, Nat.mod_eq_of_lt hv]

/-- Settles O45: the zeros are `shaZeros`, the least number with its remainder, and 55 bytes still leave room for the
`0x80` and the length in one block. -/
theorem paddingLayout : Obligations.PaddingLayout := by
  refine ⟨fun m hm => ⟨shaZeros m.length, bytes (bitsOf 64 (8 * m.length)), ?layout, length_add_shaZeros_mod _,
    ?fewest, by simp, val_bits_bytes_bitsOf 64 rfl (by omega), ?blocks⟩, fun m hm => ?oneBlock⟩
  case layout => rw [shaPad, List.append_cons]; rfl
  case fewest => exact fun fewer hfewer hmod => hfewer.not_ge (shaZeros_le_of_mod hmod)
  case blocks =>
    have := length_add_shaZeros_mod m.length
    rw [length_shaPad]
    omega
  case oneBlock =>
    have hmod := length_add_shaZeros_mod m.length
    have hle : shaZeros m.length ≤ 55 - m.length := shaZeros_le_of_mod (by omega)
    rw [length_shaPad]
    omega

/-- The bits of a concatenation of words are the bits of the first, then those of the second. -/
theorem bitsOf_toNat_append {m n : Nat} (x : BitVec m) (y : BitVec n) :
    bitsOf (m + n) (x ++ y).toNat = bitsOf m x.toNat ++ bitsOf n y.toNat := by
  have hval : val (bitsOf m x.toNat ++ bitsOf n y.toNat) = (x ++ y).toNat := by
    rw [val_append, val_bitsOf, val_bitsOf, length_bitsOf, Nat.mod_eq_of_lt x.isLt, Nat.mod_eq_of_lt y.isLt,
      BitVec.toNat_append, ← Nat.shiftLeft_add_eq_or_of_lt y.isLt, Nat.shiftLeft_eq]
  rw [← hval, bitsOf_val_of_length (by simp)]

/-- Digest bit 0 first, the digest is the stream of `h[0]` to `h[7]` (R96). -/
theorem bitsOf_sha256 (m : List Byte) :
    bitsOf 256 (sha256 m).toNat = (shaValue m).words.flatMap fun w => bitsOf 32 w.toNat := by
  change bitsOf (32 + 32 + 32 + 32 + 32 + 32 + 32 + 32) _ = _
  simp only [sha256, bitsOf_toNat_append, HashValue.words, List.flatMap_cons, List.flatMap_nil, List.append_nil,
    List.append_assoc]

/-- A checksum-bit buffer that is given the stream of eight words holds those words (R25, R39). -/
theorem csbWords_wordStream (ws : Vector Word 8) :
    csbWords (ws.toList.flatMap fun w => bitsOf 32 w.toNat) = ws := by
  refine Vector.ext fun k hk => BitVec.eq_of_getLsbD_eq fun j hj => ?_
  have hword : (32 * k + (31 - j)) / 32 = k := by omega
  have hbit : 31 - (32 * k + (31 - j)) % 32 = j := by omega
  have hstream := csb_csbWords (ws.toList.flatMap fun w => bitsOf 32 w.toNat) (32 * k + (31 - j)) (by omega)
  rw [List.getD_eq_getElem _ _ (by rw [length_wordStream]; omega), getElem_wordStream _ _ _ (by omega)] at hstream
  simpa only [hword, hbit, Vector.getElem?_eq_getElem hk, Option.getD_some] using hstream

/-- A whole digest in the checksum-bit buffer is the final hash value, a word in each register (R96). -/
theorem csbWords_sha256 (m : List Byte) : (csbWords (checksumBits sha256 m 256)).toList = (shaValue m).words := by
  have hstream : checksumBits sha256 m 256 = (shaValue m).words.flatMap fun w => bitsOf 32 w.toNat := by
    rw [checksumBits, List.take_of_length_le (by rw [length_bitsOf]), bitsOf_sha256]
  rw [hstream]
  exact congrArg Vector.toList (csbWords_wordStream ⟨(shaValue m).words.toArray, rfl⟩)

/-- Settles O30, by the state that `CKSUM 256` leaves and the words of a whole digest. -/
theorem fullDigestFillsTheChecksumWords : Obligations.FullDigestFillsTheChecksumWords := fun s =>
  ⟨_, execCksum_ok s le_rfl, csbWords_sha256 s.entropy⟩

/-- Settles O46: the kernel runs the model on each message of the table. -/
theorem sha256CheckValues : Obligations.Sha256CheckValues := by
  unfold Obligations.Sha256CheckValues
  decide +kernel

end Sys2Proof.Machine
end

section
/-! PROOFS. How a command ends as `STATUS` shows it (60_exceptions.md R99, R104, R105): a failed command writes nothing
else, the error index names the least bad slot, and the three fields of `STATUS` always go together. -/

namespace Sys2Proof.Machine

/-- `STATUS` after a command: its opcode, with a result and an error index that may stand with it (R105, R112). -/
theorem exec_status {i : Instr} {s t : State} (h : exec i s = .next t) :
    ∃ r eidx, t.status = mkStatus r i.op eidx ∧ r ≠ .illegalCommand ∧ resultAllowed i.op.toNat r = true ∧
      eidxAllowed i.op.toNat eidx.toNat r = true := by
  rcases exec_ends i s with ⟨r, eidx, -, hr, hres, heidx, ha⟩ | ⟨u, ha, -⟩
  · rw [ha] at h; cases h
    exact ⟨r, eidx, rfl, hr, hres, heidx⟩
  · rw [ha] at h; cases h
    exact ⟨.ok, 0, rfl, by decide, decide_eq_true (toNat_op_le i), rfl⟩

/-- Settles O40: of the two ways a command ends (`exec_ends`) only `raise` leaves a result other than `OK`. -/
theorem failedCommandWritesStatusOnly : Obligations.FailedCommandWritesStatusOnly := by
  intro i s t h hfail
  rcases exec_ends i s with ⟨r, eidx, -, -, -, -, ha⟩ | ⟨u, ha, -⟩
  · rw [ha] at h; cases h
    exact ⟨rfl, statusLastop_mkStatus r i.op eidx⟩
  · rw [ha] at h; cases h
    exact absurd (statusResult_mkStatus .ok i.op 0) hfail

/-! ### The error index -/

/-- The code of `MALFORMED_INDEX` is 4 and no other code is (R99). -/
theorem code_eq_four_iff (r : ResultCode) : r.code = 4 ↔ r = .malformedIndex := by cases r <;> decide

theorem eidxAllowed_malformedIndex (op eidx : Nat) :
    eidxAllowed op eidx .malformedIndex = true ↔ eidx < 24 ∨ (eidx = 31 ∧ op = 3) := decide_eq_true_iff

theorem eidxAllowed_of_ne_malformedIndex (op eidx : Nat) {r : ResultCode} (hr : r ≠ .malformedIndex) :
    eidxAllowed op eidx r = true ↔ eidx = 0 := by
  cases r with
  | malformedIndex => exact absurd rfl hr
  | _ => exact decide_eq_true_iff

/-- The error index of a malformed index: the least bad slot, and 31 when no slot is bad (R105). -/
def State.malformedEidx (s : State) : BitVec 5 := s.firstBadIndex.elim 31 (BitVec.ofNat 5)

theorem malformedEidx_of_bad {s : State} {g : Nat} (h : s.firstBadIndex = some g) : s.malformedEidx.toNat = g := by
  have hg := firstBadIndex_lt h
  simp only [State.malformedEidx, h, Option.elim_some, BitVec.toNat_ofNat]
  omega

theorem malformedEidx_of_good {s : State} (h : s.firstBadIndex = none) : s.malformedEidx = 31 := by
  rw [State.malformedEidx, h, Option.elim_none]

/-- `UNPACK` meets both causes of `MALFORMED_INDEX`, the bad slot first (R77, R105). -/
theorem execUnpack_eidx {ebits : Nat} {s t : State} (h : execUnpack ebits s = .next t)
    (hres : statusResult t.status = 4) : statusEidx t.status = s.malformedEidx := by
  cases hb : s.firstBadIndex with
  | some g =>
    rw [execUnpack_badIndex ebits hb] at h; cases h
    rw [statusEidx_mkStatus, State.malformedEidx, hb, Option.elim_some]
  | none =>
    by_cases h8 : ebits % 8 = 0
    · by_cases hp : s.indexBits < ebits ∨ 256 < ebits ∨ 256 < s.indexBits - ebits
      · rw [execUnpack_badParameter hb h8 hp] at h; cases h
        simp [ResultCode.code] at hres
      · rw [execUnpack_ok hb h8 (by omega) (by omega) (by omega)] at h; cases h
        simp [ResultCode.code] at hres
    · rw [execUnpack_badMultiple hb h8] at h; cases h
      rw [statusEidx_mkStatus, malformedEidx_of_good hb]

/-- `DECODE` meets only the first cause (R83, R105). -/
theorem decodeWith_eidx {H : HashFn} {s t : State} (h : decodeWith H s = .next t)
    (hres : statusResult t.status = 4) : statusEidx t.status = s.malformedEidx := by
  by_cases hcount : s.wcnt.toNat ∈ Config.wordCounts
  · cases hb : s.firstBadIndex with
    | some g =>
      rw [decodeWith_badIndex H hcount hb] at h; cases h
      rw [statusEidx_mkStatus, State.malformedEidx, hb, Option.elim_some]
    | none =>
      by_cases hchk : s.decodedChecksum = s.expectedChecksum H
      · rw [decodeWith_ok hcount hb hchk] at h; cases h
        simp [ResultCode.code] at hres
      · rw [decodeWith_invalidChecksum hcount hb hchk] at h; cases h
        simp [ResultCode.code] at hres
  · rw [decodeWith_invalidCount H hcount] at h; cases h
    simp [ResultCode.code] at hres

/-- Only `UNPACK` and `DECODE` have a malformed index to name (R112). -/
theorem op_of_malformedIndex {i : Instr} {s t : State} (h : exec i s = .next t) (hres : statusResult t.status = 4) :
    i.op.toNat = 3 ∨ i.op.toNat = 5 := by
  obtain ⟨r, eidx, hst, -, hallowed, -⟩ := exec_status h
  rw [hst, statusResult_mkStatus, code_eq_four_iff] at hres
  subst hres
  exact of_decide_eq_true hallowed

theorem exec_malformedIndex_eidx {i : Instr} {s t : State} (h : exec i s = .next t)
    (hres : statusResult t.status = 4) : statusEidx t.status = s.malformedEidx := by
  have hop := op_of_malformedIndex h hres
  cases i with
  | unpack ebits => exact execUnpack_eidx h hres
  | decode => exact decodeWith_eidx h hres
  | _ => simp [Instr.op] at hop

theorem exec_eidx_of_ne {i : Instr} {s t : State} (h : exec i s = .next t) (hres : statusResult t.status ≠ 4) :
    statusEidx t.status = 0 := by
  obtain ⟨r, eidx, hst, -, -, heidx⟩ := exec_status h
  rw [hst, statusResult_mkStatus, ne_eq, code_eq_four_iff] at hres
  rw [hst, statusEidx_mkStatus]
  exact BitVec.eq_of_toNat_eq ((eidxAllowed_of_ne_malformedIndex _ _ hres).1 heidx)

/-- Settles O43: with `MALFORMED_INDEX` the error index is `malformedEidx`, which follows the search for a bad slot. -/
theorem errorIndexNamesTheLeastBadSlot : Obligations.ErrorIndexNamesTheLeastBadSlot := by
  refine fun i s t h => ⟨exec_eidx_of_ne h, fun hres => ⟨fun g hg hbad hleast => ?_, fun hgood => ?_⟩⟩
  · rw [exec_malformedIndex_eidx h hres]
    exact malformedEidx_of_bad (firstBadIndex_eq_some.2 ⟨hg, hbad, hleast⟩)
  · rw [exec_malformedIndex_eidx h hres, malformedEidx_of_good (firstBadIndex_eq_none.2 hgood)]
    rfl

/-! ### Every step keeps `STATUS` legal -/

/-- Whatever word is written to `CMD`, it leaves a legal `STATUS`, for it overwrites all of it (R107). -/
theorem runWord_statusLegal {w : Word} {s t : State} (h : runWord w s = .next t) : StatusLegal t.status := by
  rcases decode_cases w with ⟨i, hi⟩ | ⟨e, hi⟩
  · rw [runWord_ok s hi] at h
    obtain ⟨r, eidx, hst, -, hres, heidx⟩ := exec_status h
    exact ⟨r, i.op, eidx, hst, hres, heidx⟩
  · rw [runWord_illegal s hi] at h; cases h
    exact ⟨.illegalCommand, fieldOp w, 0, rfl, rfl, rfl⟩

/-- Settles O5: a command word and a reset leave a legal `STATUS` of their own, every other step the one it found. -/
theorem stepKeepsStatusLegal : Obligations.StepKeepsStatusLegal := by
  intro s t hs h
  rcases step_cases s with ⟨-, hst⟩ | ⟨ev, rest, -, ⟨off, size, -, hst⟩ | ⟨-, hst⟩ | ⟨off, size, v, -, -, hst⟩ |
    ⟨w, -, hst⟩ | ⟨r, v, -, -, hst⟩⟩ <;> rw [hst] at h
  · cases h; exact hs
  · cases h; exact hs
  · cases h; exact resetMeetsInvariants.2
  · cases h; exact hs
  · exact runWord_statusLegal h
  · obtain ⟨u, hu, hstatus⟩ := writeStorage_keeps_status { s with pending := rest } r v
    rw [hu] at h; cases h
    exact hstatus ▸ hs

end Sys2Proof.Machine
end

section
/-! PROOFS. The block never stops (60_exceptions.md R98): every step goes on with the next event, and a refused access
changes no register (20_memory.md R46, R52). -/

namespace Sys2Proof.Machine

theorem writeStorage_pending {s t : State} {r : Reg} {v : Word} (h : writeStorage s r v = .next t) :
    t.pending = s.pending := by
  unfold writeStorage at h
  split at h <;> cases h
  · rename_i u hu
    exact (storeReg_spec hu).2.1
  · rfl

/-- A step takes the next event and no other, a reset not excepted (log entries 1 and 9). -/
theorem step_pending {s t : State} (h : step s = .next t) : t.pending = s.pending.tail := by
  rcases step_cases s with ⟨hp, hst⟩ | ⟨ev, rest, hp, ⟨off, size, -, hst⟩ | ⟨-, hst⟩ | ⟨off, size, v, -, -, hst⟩ |
    ⟨w, -, hst⟩ | ⟨r, v, -, -, hst⟩⟩ <;> rw [hst] at h <;> rw [hp]
  · cases h; exact hp
  · cases h; rfl
  · cases h; rfl
  · cases h; rfl
  · exact (runWord_sameBus h).1
  · exact writeStorage_pending h

/-- Settles O7: by the event a step takes; a reset leaves no reply, and a read changes no register at all. -/
theorem everyStepGoesOn : Obligations.EveryStepGoesOn := by
  intro s
  obtain ⟨t, ht⟩ := step_next s
  refine ⟨t, ht, fun ev rest hp => ⟨(step_pending ht).trans (congrArg List.tail hp), fun herr => ?_⟩⟩
  cases ev with
  | read off size =>
    rw [step_read hp] at ht; cases ht
    exact readReg_of_bus s rest _
  | reset =>
    rw [step_event hp] at ht; cases ht
    simp at herr
  | write off size v =>
    obtain ⟨u, hu, hreply, hsame⟩ := step_write hp
    rw [ht] at hu; cases hu
    refine hsame (by_contra fun hok => ?_)
    rw [if_neg hok] at hreply
    simp [hreply] at herr

end Sys2Proof.Machine
end

section
/-! PROOFS. The matrix of 60_exceptions.md R112: no command ends with a result its row denies, and each result
that it grants is reached from a state within 10_state.md R28. -/

namespace Sys2Proof.Machine

/-- A command that has a word ends with this result and error index from some state within R28. -/
def CanEnd (i : Instr) (r : ResultCode) (eidx : BitVec 5) : Prop :=
  i.WellFormed ∧ ∃ s t : State, s.InRange ∧ exec i s = .next t ∧ t.status = mkStatus r i.op eidx

theorem canEnd_of_raise {i : Instr} {s : State} {r : ResultCode} {eidx : BitVec 5} (hi : i.WellFormed)
    (hs : s.InRange) (h : exec i s = raise i.op r eidx s) : CanEnd i r eidx := ⟨hi, s, _, hs, h, rfl⟩

theorem canEnd_ok_of_finish {i : Instr} {s u : State} (hi : i.WellFormed) (hs : s.InRange)
    (h : exec i s = finish i.op u) : CanEnd i .ok 0 := ⟨hi, s, _, hs, h, rfl⟩

theorem op_eq_of_toNat_eq {i : Instr} {op : BitVec 4} (h : op.toNat = i.op.toNat) : i.op = op :=
  (BitVec.eq_of_toNat_eq h).symm

theorem firstBadIndex_reset : State.reset.firstBadIndex = none := firstBadIndex_eq_none.2 (by simp)

/-! ### Commands that end `OK` -/

/-- The valid entropy of sixteen zero bytes. -/
def zeroEntropy : State := { State.reset with elen := 16 }

theorem zeroEntropy_inRange : zeroEntropy.InRange := by decide

theorem encode_canEnd_ok : CanEnd .encode .ok 0 :=
  canEnd_ok_of_finish rfl zeroEntropy_inRange (encodeWith_ok hashPort (s := zeroEntropy) (by decide))

/-- What `ENCODE` leaves is a state from which `DECODE` ends `OK` (R84). -/
theorem exists_decode_ok : ∃ s t : State, s.InRange ∧ exec .decode s = .next t ∧ statusResult t.status = 0 ∧
    t.elen = 16 := by
  obtain ⟨s, t, hencode, hdecode, hok, helen, -⟩ := encodeDecodeRoundTrip.1 zeroEntropy (by decide)
  exact ⟨s, t, exec_keeps_inRange zeroEntropy_inRange hencode, hdecode, hok, helen⟩

theorem decode_canEnd_ok : CanEnd .decode .ok 0 := by
  obtain ⟨s, t, hs, h, hok, -⟩ := exists_decode_ok
  obtain ⟨-, -, -, rfl⟩ := decodeWith_result_ok h hok
  exact ⟨rfl, s, _, hs, h, rfl⟩

theorem unpack_canEnd_ok : CanEnd (.unpack 0) .ok 0 :=
  canEnd_ok_of_finish (by decide) reset_inRange
    (execUnpack_ok (ebits := 0) firstBadIndex_reset (by decide) (by decide) (by decide) (by decide))

/-- Every command ends `OK` from some state (R112, first column). -/
theorem exists_canEnd_ok {op : BitVec 4} (hop : op.toNat ≤ 6) : ∃ i : Instr, i.op = op ∧ CanEnd i .ok 0 := by
  have hcases : op = 0 ∨ op = 1 ∨ op = 2 ∨ op = 3 ∨ op = 4 ∨ op = 5 ∨ op = 6 := by
    revert op; decide
  rcases hcases with rfl | rfl | rfl | rfl | rfl | rfl | rfl
  · exact ⟨.nop, rfl, canEnd_ok_of_finish rfl reset_inRange rfl⟩
  · exact ⟨.cksum 0, rfl, canEnd_ok_of_finish (by decide) reset_inRange
      (cksumWith_ok (n := 0) State.reset (by decide))⟩
  · exact ⟨.pack, rfl, canEnd_ok_of_finish rfl reset_inRange (execPack_ok (by decide) (by decide))⟩
  · exact ⟨.unpack 0, rfl, unpack_canEnd_ok⟩
  · exact ⟨.encode, rfl, encode_canEnd_ok⟩
  · exact ⟨.decode, rfl, decode_canEnd_ok⟩
  · exact ⟨.clear, rfl, canEnd_ok_of_finish rfl reset_inRange rfl⟩

/-! ### Commands that fail -/

/-- Twenty-four indices, all 0 but for slot `g`, which is one above the range. -/
def oneBadSlot (g : Nat) : State := { State.reset with wcnt := 24, idx := State.reset.idx.setIfInBounds g 2048 }

theorem oneBadSlot_inRange (g : Nat) : (oneBadSlot g).InRange := by
  obtain ⟨he, hc, -, hz, hr⟩ := reset_inRange
  exact ⟨he, hc, Nat.le_refl 24, hz, hr⟩

theorem firstBadIndex_oneBadSlot {g : Nat} (hg : g < 24) : (oneBadSlot g).firstBadIndex = some g := by
  have hslot : ∀ k, k < 24 → (oneBadSlot g).slot k = if g = k then 2048 else 0 := by
    intro k hk
    simp [oneBadSlot, State.slot, State.reset, Vector.getElem?_eq_getElem hk, Vector.getElem_setIfInBounds]
  refine firstBadIndex_eq_some.2 ⟨hg, ?_, fun k hk => ?_⟩
  · rw [hslot g hg, if_pos rfl]; decide
  · rw [hslot k (by omega), if_neg (by omega)]; decide

theorem unpack_canEnd_badIndex {g : Nat} (hg : g < 24) :
    CanEnd (.unpack 0) .malformedIndex (BitVec.ofNat 5 g) :=
  canEnd_of_raise (by decide) (oneBadSlot_inRange g) (execUnpack_badIndex 0 (firstBadIndex_oneBadSlot hg))

theorem unpack_canEnd_badMultiple : CanEnd (.unpack 1) .malformedIndex 31 :=
  canEnd_of_raise (by decide) reset_inRange (execUnpack_badMultiple (ebits := 1) firstBadIndex_reset (by decide))

theorem decode_canEnd_badIndex {g : Nat} (hg : g < 24) : CanEnd .decode .malformedIndex (BitVec.ofNat 5 g) :=
  have hcount : (oneBadSlot g).wcnt.toNat ∈ Config.wordCounts := mem_wordCounts.2 (by simp [oneBadSlot])
  canEnd_of_raise rfl (oneBadSlot_inRange g) (decodeWith_badIndex hashPort hcount (firstBadIndex_oneBadSlot hg))

/-- A flipped checksum bit in a sequence that `DECODE` accepts, by R85 and so with no digest to compute. -/
theorem decode_canEnd_invalidChecksum : CanEnd .decode .invalidChecksum 0 := by
  obtain ⟨s, t, hs, h, hok, helen⟩ := exists_decode_ok
  obtain ⟨hcount, -⟩ := decodeWith_result_ok h hok
  have hbit : 128 < 11 * s.wcnt.toNat := by have := mem_wordCounts.1 hcount; omega
  have hflip := (checksumSensitivity s t 128 128 h hok (by rw [helen]; rfl) hbit).1 le_rfl
  exact ⟨rfl, s.flipStreamBit 128, _, hs, hflip, show 0x53 = mkStatus .invalidChecksum 5 0 by decide⟩

/-- A request outside the domain of `CKSUM`, `PACK` or `UNPACK` (R102). -/
theorem exists_canEnd_badParameter {op : BitVec 4} (hop : op.toNat = 1 ∨ op.toNat = 2 ∨ op.toNat = 3) :
    ∃ i : Instr, i.op = op ∧ CanEnd i .badParameter 0 := by
  rcases hop with hop | hop | hop
  · exact ⟨.cksum 257, op_eq_of_toNat_eq hop, canEnd_of_raise (by decide) reset_inRange
      (cksumWith_badParameter (H := hashPort) (n := 257) State.reset (by decide))⟩
  · exact ⟨.pack, op_eq_of_toNat_eq hop, canEnd_of_raise rfl zeroEntropy_inRange
      (execPack_badParameter (by decide))⟩
  · exact ⟨.unpack 8, op_eq_of_toNat_eq hop, canEnd_of_raise (by decide) reset_inRange
      (execUnpack_badParameter (ebits := 8) firstBadIndex_reset (by decide) (by decide))⟩

theorem exists_canEnd_malformedIndex {op : BitVec 4} (hop : op.toNat = 3 ∨ op.toNat = 5) :
    ∃ i : Instr, i.op = op ∧ CanEnd i .malformedIndex 0 := by
  rcases hop with hop | hop
  · exact ⟨.unpack 0, op_eq_of_toNat_eq hop, unpack_canEnd_badIndex (g := 0) (by decide)⟩
  · exact ⟨.decode, op_eq_of_toNat_eq hop, decode_canEnd_badIndex (g := 0) (by decide)⟩

/-- Every "yes" of R112, with error index 0: the table column by column. -/
theorem exists_canEnd {op : BitVec 4} {r : ResultCode} (hr : r ≠ .illegalCommand)
    (h : resultAllowed op.toNat r = true) : ∃ i : Instr, i.op = op ∧ CanEnd i r 0 := by
  cases r with
  | ok => exact exists_canEnd_ok (of_decide_eq_true h)
  | invalidEntropyLength =>
    have hop : op.toNat = 4 := of_decide_eq_true h
    exact ⟨.encode, op_eq_of_toNat_eq hop,
      canEnd_of_raise rfl reset_inRange (encodeWith_invalidLength hashPort (s := State.reset) (by decide))⟩
  | invalidWordCount =>
    have hop : op.toNat = 5 := of_decide_eq_true h
    exact ⟨.decode, op_eq_of_toNat_eq hop,
      canEnd_of_raise rfl reset_inRange (decodeWith_invalidCount hashPort (s := State.reset) (by decide))⟩
  | invalidChecksum =>
    have hop : op.toNat = 5 := of_decide_eq_true h
    exact ⟨.decode, op_eq_of_toNat_eq hop, decode_canEnd_invalidChecksum⟩
  | malformedIndex => exact exists_canEnd_malformedIndex (of_decide_eq_true h)
  | badParameter => exact exists_canEnd_badParameter (of_decide_eq_true h)
  | illegalCommand => exact absurd rfl hr

/-- `UNPACK` names every slot, and 31 for an `ebits` that is no multiple of 8 (R105). -/
theorem exists_unpack_canEnd_malformedIndex {eidx : BitVec 5} (h : eidx.toNat < 24 ∨ eidx.toNat = 31) :
    ∃ ebits, CanEnd (.unpack ebits) .malformedIndex eidx := by
  rcases h with hslot | h31
  · have hcan := unpack_canEnd_badIndex hslot
    rw [BitVec.ofNat_toNat, BitVec.setWidth_eq] at hcan
    exact ⟨0, hcan⟩
  · obtain rfl : eidx = 31 := BitVec.eq_of_toNat_eq h31
    exact ⟨1, unpack_canEnd_badMultiple⟩

/-- Only `UNPACK` ends with the number that no slot has (R105). -/
theorem exec_eidx_ne_31 {i : Instr} {s t : State} (hop : i.op.toNat ≠ 3) (h : exec i s = .next t) :
    (statusEidx t.status).toNat ≠ 31 := by
  obtain ⟨r, eidx, hst, -, -, heidx⟩ := exec_status h
  rw [hst, statusEidx_mkStatus]
  by_cases hr : r = .malformedIndex
  · subst hr
    have := (eidxAllowed_malformedIndex _ _).1 heidx
    omega
  · have := (eidxAllowed_of_ne_malformedIndex _ _ hr).1 heidx
    omega

theorem runWord_illegal_result {w : Word} (hw : ∀ i, decode w ≠ .ok i) (s : State) :
    ∃ t, runWord w s = .next t ∧ statusResult t.status = ResultCode.illegalCommand.code := by
  obtain ⟨i, hi⟩ | ⟨e, he⟩ := decode_cases w
  · exact absurd hi (hw i)
  · exact ⟨_, runWord_illegal s he, statusResult_mkStatus _ _ _⟩

/-- Settles O44: the denied results by `exec_status`, the granted ones by a state each (`CanEnd`). -/
theorem commandsAgainstResults : Obligations.CommandsAgainstResults := by
  refine ⟨?denied, ?granted, ?unpackIndex, fun s t => exec_eidx_ne_31 (by decide), fun w => runWord_illegal_result⟩
  case denied =>
    intro i s t h
    obtain ⟨r, eidx, hst, hr, hres, -⟩ := exec_status h
    exact ⟨r, hst ▸ statusResult_mkStatus r i.op eidx, hr, hres⟩
  case granted =>
    intro op r _ hr hres
    obtain ⟨i, hop, hi, s, t, hs, h, hst⟩ := exists_canEnd hr hres
    exact ⟨i, s, t, hop, hi, hs, h, hst ▸ statusResult_mkStatus r i.op 0⟩
  case unpackIndex =>
    intro eidx heidx
    obtain ⟨ebits, hi, s, t, hs, h, hst⟩ := exists_unpack_canEnd_malformedIndex heidx
    exact ⟨ebits, s, t, hi, hs, h, hst ▸ statusResult_mkStatus _ _ eidx, hst ▸ statusEidx_mkStatus _ _ eidx⟩

end Sys2Proof.Machine
end

section
/-! PROOFS. The reset event (70_reset_and_hazards.md R113, R114). -/

namespace Sys2Proof.Machine

/-- A reset leaves the reset state and the events that have still to come, whatever the state before (log entry 9). -/
theorem step_reset {s : State} {rest : List BusEvent} (h : s.pending = .reset :: rest) :
    step s = .next { State.reset with pending := rest } := step_event h

/-- Settles O2: a reset leaves the reset state but for the pending events, and no register reads those. -/
theorem resetEventRestoresRegisters : Obligations.ResetEventRestoresRegisters := by
  intro s rest h
  exact ⟨_, step_reset h, readReg_of_bus State.reset rest none, rfl, reset_reply⟩

end Sys2Proof.Machine
end
